-- ==== Sys2Proof/Word.lean ====
section
/-! DEFINITION. The unsigned integer types of the block (spec/00_scope.md R5, R7): every value is an
unsigned integer of a stated width, and there is no signed value anywhere. -/

namespace Sys2Proof

/-- `u64`: a divisor, a dividend, a quotient, a remainder, the registers `M` and `MULT` (R5). -/
abbrev Word := BitVec 64

/-- `u128`: the product `n * MULT` and the numerator of the construction (R5). -/
abbrev Wide := BitVec 128

/-- `u7`: the container of the register `SHIFT` (R12). -/
abbrev ShiftAmount := BitVec 7

/-- `CMD66`: one command word, presented whole (R26, R35). -/
abbrev CMD66 := BitVec 66

/-- `RSP66`: one response word, presented whole (R26, R36). -/
abbrev RSP66 := BitVec 66

/-- The 2-bit field `OP` of a command word (R35). -/
abbrev OpField := BitVec 2

/-- The 2-bit field `STATUS` of a response word (R36). -/
abbrev StatusField := BitVec 2

end Sys2Proof
end

