-- ==== Sys2Proof/Syntax.lean ====
section
/-! DEFINITION. The command set FDC-1 (spec/00_scope.md R1, R8; spec/30_encoding.md R35 to R40): one
constructor per row of spec/opcode_table.json, and the names of the responses' status codes. -/

namespace Sys2Proof

/-- One command, with the 64-bit operand its word carries (R35, R37, R38). -/
inductive Instr where
  /-- The reserved opcode `0b00`; its operand plays no part (R39, R83). -/
  | reserved (imm : Word)
  /-- `BUILD d`: construct the divisor instance for `d` (R45). -/
  | build (d : Word)
  /-- `DIV n`: quotient of `n` by the constructed divisor (R55). -/
  | div (n : Word)
  /-- `RED n`: remainder of `n` by the constructed divisor (R62). -/
  | red (n : Word)
deriving DecidableEq, Repr

/-- The status of a response (R40). -/
inductive Status where
  /-- The command succeeded; `DATA` is its result. -/
  | ok
  /-- The construction precondition is violated: `d = 0`. -/
  | zeroDivisor
  /-- The block holds no instance: `VALID = 0`. -/
  | noDivisor
  /-- The command word's `OP` is reserved. -/
  | illegalOp
deriving DecidableEq, Repr

/-- The errors of the block, all three of them (spec/60_exceptions.md R81 to R84). -/
inductive BlockError where
  /-- `ZERO_DIVISOR`, raised by `BUILD 0` alone (R81). -/
  | zeroDivisor
  /-- `NO_DIVISOR`, raised by `DIV` and `RED` while `VALID = 0` (R82). -/
  | noDivisor
  /-- `ILLEGAL_OP`, raised by the reserved opcode (R83). -/
  | illegalOp
deriving DecidableEq, Repr

end Sys2Proof
end

