-- ==== Sys2Proof/WellFormed.lean ====
section
/-! DEFINITION. The checks the spec makes on what is presented to the block: a command word is below
`2^66` and a literal below `2^64` (spec/30_encoding.md R35, R38, R42). A term of `Instr` carries a
64-bit operand by its type, so none is ill-formed: "every 66-bit value is a well-formed command
word" (R35), and a zero divisor "is an operand error, not an encoding error" (R39). -/

namespace Sys2Proof

/-- A raw command word lies in `0 .. 2^66 - 1` (R35, R41, R42 `.cmd`). -/
def commandWordInRange (v : Nat) : Bool := decide (v < 2 ^ 66)

/-- An operand literal lies in `0 .. 2^64 - 1` (R38, R42). -/
def literalInRange (v : Nat) : Bool := decide (v < 2 ^ 64)

/-- The operand a command carries, whatever the command (R38). -/
def Instr.operand : Instr → Word
  | .reserved imm => imm
  | .build d => d
  | .div n => n
  | .red n => n

/-- Every command is well-formed: its operand is a `u64`, and each operand value of each opcode,
the reserved one among them, is a command word the block answers (R35, R38, R39). -/
def Instr.wf (i : Instr) : Bool := literalInRange i.operand.toNat

end Sys2Proof
end

