-- ==== Sys2Proof/Decode.lean ====
section
/-! DEFINITION. Command words and response words as bits (spec/30_encoding.md R35 to R40): the
fields, the opcode map, the decoder, total on 66-bit words (R35), the encoder, and the
response word. -/

namespace Sys2Proof

/-- `OP = CMD[65:64]` (R35). -/
def opField (w : CMD66) : OpField := w.extractLsb' 64 2

/-- `IMM = CMD[63:0]`, as it stands: no extension, scaling or split field (R35, R38). -/
def immField (w : CMD66) : Word := w.extractLsb' 0 64

/-- The opcode of a command (R37). -/
def opcodeOf : Instr → OpField
  | .reserved _ => 0b00#2
  | .build _ => 0b01#2
  | .div _ => 0b10#2
  | .red _ => 0b11#2

/-- The decoder: `OP` alone selects the command and `IMM` is its operand (R37, R38). -/
def decode (w : CMD66) : Instr :=
  if opField w = 0b00#2 then .reserved (immField w)
  else if opField w = 0b01#2 then .build (immField w)
  else if opField w = 0b10#2 then .div (immField w)
  else .red (immField w)

/-- Why a number is no command. -/
inductive DecodeError where
  /-- The number is `2^66` or more, so it is no 66-bit word (R41, R42). -/
  | notACommandWord (v : Nat)
deriving DecidableEq, Repr

/-- A number as a command word; refused by name when it has more than 66 bits (R41). -/
def commandWord (v : Nat) : Except DecodeError CMD66 :=
  if commandWordInRange v then .ok (BitVec.ofNat 66 v) else .error (.notACommandWord v)

/-- The command a number stands for, refused by name where it is no command word. -/
def decodeNumber (v : Nat) : Except DecodeError Instr :=
  (commandWord v).map decode

/-- The encoder: `CMD = {OP, IMM}` (R35, R37). -/
def encode (i : Instr) : CMD66 := opcodeOf i ++ i.operand

/-- One row of spec/opcode_table.json: a word `w` is the command of the row when
`(w AND mask) = match` (R37). -/
structure OpRow where
  mnemonic : String
  matchBits : CMD66
  maskBits : CMD66
deriving DecidableEq, Repr

/-- The row of a command, its `match` and `mask` as R37 lists them. -/
def rowOf : Instr → OpRow
  | .reserved _ => ⟨"RESERVED", 0x00000000000000000#66, 0x30000000000000000#66⟩
  | .build _ => ⟨"BUILD", 0x10000000000000000#66, 0x30000000000000000#66⟩
  | .div _ => ⟨"DIV", 0x20000000000000000#66, 0x30000000000000000#66⟩
  | .red _ => ⟨"RED", 0x30000000000000000#66, 0x30000000000000000#66⟩

/-- The opcode map as a list of its four rows (R37). -/
def opcodeTable : List OpRow :=
  [rowOf (.reserved 0), rowOf (.build 0), rowOf (.div 0), rowOf (.red 0)]

/-- A word is a command of a row (R37). -/
def OpRow.matchesWord (r : OpRow) (w : CMD66) : Bool := decide (w &&& r.maskBits = r.matchBits)

/-- The code of a status (R40). -/
def Status.code : Status → StatusField
  | .ok => 0b00#2
  | .zeroDivisor => 0b01#2
  | .noDivisor => 0b10#2
  | .illegalOp => 0b11#2

/-- The status a code names; every code names one (R40). -/
def statusOfCode (c : StatusField) : Status :=
  if c = 0b00#2 then .ok
  else if c = 0b01#2 then .zeroDivisor
  else if c = 0b10#2 then .noDivisor
  else .illegalOp

/-- The status that reports an error (R81 to R83). -/
def BlockError.status : BlockError → Status
  | .zeroDivisor => .zeroDivisor
  | .noDivisor => .noDivisor
  | .illegalOp => .illegalOp

/-- The response word `{STATUS, DATA}` (R36). -/
def responseWord (st : Status) (data : Word) : RSP66 := st.code ++ data

/-- `STATUS = RSP[65:64]`, by its name (R36, R40). -/
def responseStatus (r : RSP66) : Status := statusOfCode (r.extractLsb' 64 2)

/-- `DATA = RSP[63:0]` (R36). -/
def responseData (r : RSP66) : Word := r.extractLsb' 0 64

/-- The command of the table word `w`, whose bits the table numbers as R35 does, bit 0 the least
significant of the one 66-bit word. The table's 66 bits are 72 in whole bytes, so the bits from
66 up must be 0 (R41). -/
def decodeTableWord (nbits w : Nat) : Option Instr :=
  if w < 2 ^ nbits then (decodeNumber w).toOption else none

end Sys2Proof
end

