-- ==== Sys2Proof/Config.lean ====
section
/-! DEFINITION. What an implementation fixes and what the spec leaves open: the one open parameter
`HAS_DIAG_PORT` (spec/00_scope.md R5), and the values the spec calls unspecified
(spec/10_state.md R17, R22). The unspecified values are opaque: nothing can evaluate them, so a
claim about them holds for every value. -/

namespace Sys2Proof

/-- The open parameters of the block, taken as an argument by what depends on them
(R5, spec/92_eei_decisions.md "Open parameters"); there is one. -/
structure Config.Params where
  /-- `HAS_DIAG_PORT`: whether the read-only diagnostic port exists; default `false` (R5, R22). -/
  hasDiagPort : Bool := false
deriving DecidableEq, Repr

/-- FREE VALUE (log entry 2). What `M` holds once it "becomes unspecified" (R17, R81, R95): any
function of the number of the draw and of what the register held, so that keeping the old
contents is among the possibilities. -/
opaque Config.unspecifiedM : Nat → Word → Word

/-- FREE VALUE (log entry 2). What `SHIFT` holds once it "becomes unspecified" (R17, R81, R95). -/
opaque Config.unspecifiedShift : Nat → ShiftAmount → ShiftAmount

/-- FREE VALUE (log entry 2). What `MULT` holds once it "becomes unspecified" (R17, R81, R95). -/
opaque Config.unspecifiedMult : Nat → Word → Word

/-- FREE VALUE (log entry 6). What the diagnostic port shows for `M` while `VALID = 0` (R22): any
function of the number of the reading and of the register's contents. -/
opaque Config.diagUnspecifiedM : Nat → Word → Word

/-- FREE VALUE (log entry 6). What the diagnostic port shows for `SHIFT` while `VALID = 0` (R22). -/
opaque Config.diagUnspecifiedShift : Nat → ShiftAmount → ShiftAmount

/-- FREE VALUE (log entry 6). What the diagnostic port shows for `MULT` while `VALID = 0` (R22). -/
opaque Config.diagUnspecifiedMult : Nat → Word → Word

end Sys2Proof
end

