-- ==== Sys2Proof/Machine/State.lean ====
section
/-! DEFINITION. The state of the block: the four registers of spec/10_state.md R10, and beside them the
model's own fields, which are what the host has presented, what the block has answered, and the
number of free values drawn. -/

namespace Sys2Proof.Machine

/-- What the host may do to the block between two commands (spec/00_scope.md R6): present a command
word, or apply reset (spec/70_reset_and_hazards.md R95). -/
inductive HostEvent where
  /-- A command word is presented (R6). -/
  | command (w : CMD66)
  /-- The reset event, which is no command and has no response (R95). -/
  | reset
deriving DecidableEq, Repr

/-- The state. `valid`, `m`, `shift` and `mult` are the whole architectural state (R10); the other
three fields are the model's own (log entries 3 and 4). -/
structure State where
  /-- `VALID`, 1 bit: the block holds a constructed instance (R14). -/
  valid : Bool
  /-- `M[63:0]`, the divisor (R11). -/
  m : Word
  /-- `SHIFT[6:0]`, the exponent of the fixed-point scale (R12). -/
  shift : ShiftAmount
  /-- `MULT[63:0]`, the reciprocal (R13). -/
  mult : Word
  /-- MODEL'S OWN. What the host has presented and the block has not yet taken, in the order of
  presentation, which is the program order (R19, R30). -/
  pending : List HostEvent
  /-- MODEL'S OWN. The response words given so far, oldest first (R6, R30). -/
  responses : List RSP66
  /-- MODEL'S OWN. How often the value registers have become unspecified; it numbers the draws of
  the free values (R17). -/
  draws : Nat
deriving DecidableEq, Repr

/-- The reasons a run stops with a fault. THE BLOCK ITSELF HAS NONE: it has no traps, and its errors
are responses (R80, R85). -/
inductive Fault where
  /-- Raised by the host routine `FACTMOD` alone, where a response it needs is not `OK`: "stop: report
  a precondition failure, produce no result" (R71, R76 item 3). Safe: the routine then has no
  result. -/
  | preconditionFailure
deriving DecidableEq, Repr

/-- The reasons a request has no meaning. No command of the block is refused. -/
inductive Refusal where
  /-- Raised by an arm of `exec` whose instruction has no meaning yet; no arm is left that does. Safe. -/
  | notModelled (mnemonic : String)
  /-- Raised by the host routine `MULRED` where `a * b >= 2^64`: "outside its contract: a model
  refuses it and must not truncate the product silently" (R70). Safe. -/
  | productTooWide
  /-- Raised by the host-side baseline of R74 outside its precondition: "where it does not, a model
  gives it no meaning (refuse)". Safe. -/
  | divisionPrecondition
deriving DecidableEq, Repr

/-- The state right after reset: `VALID = 0` (R17, R96), nothing presented and nothing answered. `M`,
`SHIFT` and `MULT` are unspecified there; the zeros are DESIGN CHOICE, unsafe (log entry 1). -/
def State.reset : State where
  valid := false
  m := 0
  shift := 0
  mult := 0
  pending := []
  responses := []
  draws := 0

end Sys2Proof.Machine
end

