-- ==== Sys2Proof/Machine/Flags.lean ====
section
/-! DEFINITION. `VALID`, the only flag of the block (spec/10_state.md R14, R20): no command computes a
carry, overflow, zero or sign flag. -/

namespace Sys2Proof.Machine

/-- `VALID <- 1`, by a `BUILD` whose operand is not 0 (R14). -/
def setValid (s : State) : State := { s with valid := true }

/-- `VALID <- 0`, by reset and by a `BUILD` whose operand is 0 (R14). -/
def clearValid (s : State) : State := { s with valid := false }

/-- The test `VALID = 0` that `DIV` and `RED` make first (R14, R84). -/
def holdsNoInstance (s : State) : Bool := !s.valid

end Sys2Proof.Machine
end

