-- ==== Sys2Proof/Machine/Operands.lean ====
section
/-! DEFINITION. The arithmetic the rules apply to operands, at the widths they state: `umul128`, `>>`,
`trunc_64` and `msb` of spec/00_scope.md section 5, and the two 64-bit operations of
spec/42_modular_reduction_unit.md R63. The one operand form, the 64-bit immediate taken as it
stands (R38), needs no operation. -/

namespace Sys2Proof.Machine

/-- `zext_128(v)` (spec/00_scope.md section 5). -/
def zext128 (v : Word) : Wide := v.setWidth 128

/-- `trunc_64(v)`: the low 64 bits (spec/00_scope.md section 5). -/
def trunc64 (v : Wide) : Word := v.setWidth 64

/-- `umul128(a, b)`: the exact product, which always fits 128 bits (spec/00_scope.md section 5, R56). -/
def umul128 (a b : Word) : Wide := zext128 a * zext128 b

/-- `v >> k` on `u128`: the logical shift right (spec/00_scope.md section 5). -/
def shiftRight128 (v : Wide) (k : ShiftAmount) : Wide := v >>> k.toNat

/-- `1 << k` on `u128` (spec/00_scope.md section 5). -/
def oneShiftLeft128 (k : ShiftAmount) : Wide := 1#128 <<< k.toNat

/-- `fdiv(a, b)` on `u128`: floor division (spec/00_scope.md section 5). -/
def floorDiv128 (a b : Wide) : Wide := a / b

/-- `trunc_64(a * b)`: the low 64 bits of the product, the high half recorded nowhere (R62, R63). -/
def mulLow64 (a b : Word) : Word := a * b

/-- `(a - b) mod 2^64`: a borrow out is discarded (R62, R63). -/
def subWrap64 (a b : Word) : Word := a - b

/-- `msb(v) = floor(log2(v))`: the index of the highest set bit of `v >= 1`. The spec leaves `msb(0)`
without a value and no rule applies it there (spec/00_scope.md section 5); nor does the model. -/
def msb (v : Word) : Nat := Nat.log2 v.toNat

end Sys2Proof.Machine
end

