-- ==== Sys2Proof/Machine/Ops.lean ====
section
/-! DEFINITION. The operations the commands share: giving a response, raising an error, the two
functions of the construction, writing and dropping an instance, the quotient and the remainder,
the reset event, taking the host's next event, and the diagnostic port. -/

namespace Sys2Proof.Machine

/-! ### Responses and errors -/

/-- `respond(status, data)`: the command's one response word (R6, R36). -/
def respond (st : Status) (data : Word) (s : State) : State :=
  { s with responses := s.responses ++ [responseWord st data] }

/-- `raise <Error>`: the one way the block takes an error. It is a response with the error's status
and data 0 and nothing else: no trap, no saved state, no transfer of control
(spec/60_exceptions.md R80, R85). There is no return from it: "there is nothing to return from",
the next command is accepted as after `OK` (R86). -/
def raise (e : BlockError) (s : State) : State := respond e.status 0 s

/-! ### The construction -/

/-- `shift_of(d)`, for `d >= 1`: 0 for `d = 1`, else `64 + msb(d - 1)` (R46). -/
def shiftOf (d : Word) : ShiftAmount :=
  if d = 1 then 0 else BitVec.ofNat 7 (64 + msb (d - 1))

/-- The numerator `(1 << s) + d - 1` of the construction, with `s = shift_of(d)`, in 128 bits (R47,
R49). -/
def numeratorOf (d : Word) : Wide := oneShiftLeft128 (shiftOf d) + zext128 d - 1

/-- `mult_of(d) = fdiv((1 << s) + d - 1, d)`, for `d >= 1`: the reciprocal rounded up (R47). -/
def multOf (d : Word) : Word := trunc64 (floorDiv128 (numeratorOf d) (zext128 d))

/-- The four writes of a successful `BUILD`, all together (R16, R28, R45). -/
def constructInstance (d : Word) (s : State) : State :=
  setValid { s with m := d, shift := shiftOf d, mult := multOf d }

/-- `VALID <- 0`, and `M`, `SHIFT` and `MULT` become unspecified: each takes a free value, and the
next draw is another one (R17, R81, R95; log entry 2). -/
def dropInstance (s : State) : State :=
  clearValid { s with
    m := Config.unspecifiedM s.draws s.m
    shift := Config.unspecifiedShift s.draws s.shift
    mult := Config.unspecifiedMult s.draws s.mult
    draws := s.draws + 1 }

/-! ### The results -/

/-- The `DIV` result: `trunc_64(umul128(n, MULT) >> SHIFT)`; `M` is not read (R55). -/
def quotient (n : Word) (s : State) : Word :=
  trunc64 (shiftRight128 (umul128 n s.mult) s.shift)

/-- The `RED` result: `n` less the low 64 bits of the quotient times `M`, modulo `2^64` (R62, R63). -/
def remainder (n : Word) (s : State) : Word :=
  subWrap64 n (mulLow64 (quotient n s) s.m)

/-- `DIV` and `RED` answer `OK` with their result where the block holds an instance, and
`NO_DIVISOR` where it holds none, the result then not looked at (R55, R62, R82, R84). -/
def answerIfBuilt (result : State → Word) (s : State) : State :=
  if holdsNoInstance s then raise .noDivisor s else respond .ok (result s) s

/-! ### The host -/

/-- The reset event: `VALID <- 0`, the value registers unspecified, nothing else; no response (R95). -/
def applyReset (s : State) : State := dropInstance s

/-- The host's next event and the state with that event taken; none where the host presents nothing
(R6, R19, R30). -/
def takeEvent (s : State) : Option (HostEvent × State) :=
  match s.pending with
  | [] => none
  | e :: rest => some (e, { s with pending := rest })

/-- Between commands the block is idle and keeps its registers (R89). -/
def idle (s : State) : State := s

/-- The host presents a command word as the very next one (R6). -/
def presentNext (w : CMD66) (s : State) : State :=
  { s with pending := .command w :: s.pending }

/-- The host presents a finite list of command words, to be taken first to last after whatever it has
presented before: the "program" of R19. -/
def presentProgram (ws : List CMD66) (s : State) : State :=
  { s with pending := s.pending ++ ws.map .command }

/-- What the host may use of the last response: its `DATA`, and that only if its `STATUS` is `OK`
(R91). -/
def okData (s : State) : Option Word :=
  match s.responses.getLast? with
  | none => none
  | some r => if responseStatus r = .ok then some (responseData r) else none

/-! ### The diagnostic port -/

/-- What the diagnostic port shows (R22). -/
structure DiagView where
  valid : Bool
  m : Word
  shift : ShiftAmount
  mult : Word
deriving DecidableEq, Repr

/-- A reading of the diagnostic port. It exists only if `HAS_DIAG_PORT`; it shows `VALID`, and the
three values while `VALID = 1`; while `VALID = 0` the three value outputs are unspecified, and
may differ from one reading to another. Reading changes nothing and is no command (R22, R96; log
entry 6). -/
def diagPort (p : Config.Params) (reading : Nat) (s : State) : Option DiagView :=
  if p.hasDiagPort then
    some (if s.valid then ⟨s.valid, s.m, s.shift, s.mult⟩
      else ⟨s.valid, Config.diagUnspecifiedM reading s.m,
        Config.diagUnspecifiedShift reading s.shift, Config.diagUnspecifiedMult reading s.mult⟩)
  else none

end Sys2Proof.Machine
end

