-- ==== Sys2Proof/Machine/FastDivisorCircuit.lean ====
section
/-! DEFINITION. The sub-block `fast_divisor_circuit`: `BUILD` (spec/40_fast_divisor_circuit.md R45). -/

namespace Sys2Proof.Machine

/-- `BUILD d` (R45): for `d = 0` the instance is dropped and the response is `ZERO_DIVISOR` (R81); for
every other `d` the instance for `d` is written and the response is `{OK, 0}`. `VALID` is not
read: an instance already there is replaced (R52). -/
def execBuild (d : Word) (s : State) : Host.Outcome State Fault Refusal :=
  if d = 0 then .next (raise .zeroDivisor (dropInstance s))
  else .next (respond .ok 0 (constructInstance d s))

end Sys2Proof.Machine
end

