-- ==== Sys2Proof/Machine/ModularReductionUnit.lean ====
section
/-! DEFINITION. The sub-block `modular_reduction_unit`: `RED` (spec/42_modular_reduction_unit.md R62). -/

namespace Sys2Proof.Machine

/-- `RED n` (R62): `{OK, (n - DIV(n) * M) mod 2^64}`, with the quotient computed anew, or
`{NO_DIVISOR, 0}` when `VALID = 0`. It writes no register. -/
def execRed (n : Word) (s : State) : Host.Outcome State Fault Refusal :=
  .next (answerIfBuilt (remainder n) s)

end Sys2Proof.Machine
end

