-- ==== Sys2Proof/Machine/ReciprocalMultiplier.lean ====
section
/-! DEFINITION. The sub-block `fixed_point_reciprocal_multiplier`: `DIV`
(spec/41_fixed_point_reciprocal_multiplier.md R55). -/

namespace Sys2Proof.Machine

/-- `DIV n` (R55): `{OK, trunc_64((n * MULT) >> SHIFT)}`, the formula's value everywhere and so also
where it is not the true quotient (R59), or `{NO_DIVISOR, 0}` when `VALID = 0`. It writes no
register. -/
def execDiv (n : Word) (s : State) : Host.Outcome State Fault Refusal :=
  .next (answerIfBuilt (quotient n) s)

end Sys2Proof.Machine
end

