-- ==== Sys2Proof/Machine/ReservedOpcode.lean ====
section
/-! DEFINITION. The reserved opcode `0b00` (spec/30_encoding.md R39, spec/60_exceptions.md R83). -/

namespace Sys2Proof.Machine

/-- A command word with `OP = 0b00`: `ILLEGAL_OP` whatever its operand and whatever `VALID`, and no
register changes (R83). It is not a no-operation that succeeds (R39). -/
def execReserved (_imm : Word) (s : State) : Host.Outcome State Fault Refusal :=
  .next (raise .illegalOp s)

end Sys2Proof.Machine
end

