-- ==== Sys2Proof/Machine/Dispatch.lean ====
section
/-! DEFINITION. One arm per command: which meaning runs. -/

namespace Sys2Proof.Machine

def exec (i : Instr) (s : State) : Host.Outcome State Fault Refusal :=
  match i with
  | .reserved imm => Sys2Proof.Machine.execReserved imm s
  | .build d => Sys2Proof.Machine.execBuild d s
  | .div n => Sys2Proof.Machine.execDiv n s
  | .red n => Sys2Proof.Machine.execRed n s

end Sys2Proof.Machine
end

