-- ==== Sys2Proof/Machine/Step.lean ====
section
/-! DEFINITION. One step of the machine: the host's next event, whole (spec/00_scope.md R6,
spec/20_memory.md R28, R30). -/

namespace Sys2Proof.Machine

/-- One step. A presented command word is decoded and executed as one atomic step with one response
(R6, R30); a reset event is applied between commands (R95); where the host presents nothing, the
block is idle (R89). -/
def step (s : State) : Host.Outcome State Fault Refusal :=
  match takeEvent s with
  | none => .next (idle s)
  | some (.command w, s') => exec (decode w) s'
  | some (.reset, s') => .next (applyReset s')

/-- `s` with the table word `w` presented as the very next command, if it is a command word (R6,
R41): that is where the step takes its next command from (log entry 5). -/
def State.withFetchWord (s : State) (nbits w : Nat) : State :=
  if w < 2 ^ nbits then
    match commandWord w with
    | .ok c => presentNext c s
    | .error _ => s
  else s

end Sys2Proof.Machine
end

