-- ==== Sys2Proof/Machine/Assembler.lean ====
section
/-! DEFINITION. The textual form of commands and responses (spec/30_encoding.md R42). A line is a list
of characters. "A literal outside the range, a negative literal, or a missing or extra operand is
refused by the assembler; it never reaches the block." -/

namespace Sys2Proof.Machine

/-- Why the assembler refuses a line (R42). -/
inductive AsmError where
  | unknownMnemonic
  | missingOperand
  | extraOperand
  | badLiteral
  | outOfRange
deriving DecidableEq, Repr

/-- What a line assembles to. -/
inductive AsmResult where
  /-- The line is blank or only a comment. -/
  | noCommand
  /-- The line is one command word. -/
  | word (w : CMD66)
  /-- The line is refused. -/
  | refused (e : AsmError)
deriving DecidableEq, Repr

/-- The value of a digit, decimal or hexadecimal; that a letter may be of either case is log entry 9. -/
def digitValue (c : Char) : Option Nat :=
  let k := c.toNat
  if 48 ≤ k ∧ k ≤ 57 then some (k - 48)
  else if 65 ≤ k ∧ k ≤ 70 then some (k - 55)
  else if 97 ≤ k ∧ k ≤ 102 then some (k - 87)
  else none

/-- The number a string of digits stands for, "optionally with `_` between digits" (R42): `acc` is the
value so far and `afterDigit` says that the last character was a digit. -/
def digits (base : Nat) : Nat → Bool → List Char → Option Nat
  | acc, afterDigit, [] => if afterDigit then some acc else none
  | acc, afterDigit, c :: cs =>
    if c = '_' then (if afterDigit then digits base acc false cs else none)
    else match digitValue c with
      | some v => if v < base then digits base (acc * base + v) true cs else none
      | none => none

/-- An unsigned literal, decimal or hexadecimal with `0x` (R42). -/
def literal : List Char → Option Nat
  | '0' :: 'x' :: cs => digits 16 0 false cs
  | cs => digits 10 0 false cs

/-- `;` starts a comment to the end of the line (R42). -/
def withoutComment : List Char → List Char
  | [] => []
  | c :: cs => if c = ';' then [] else c :: withoutComment cs

/-- A blank or a tab, which part the words of a line (log entry 9). -/
def isBlank (c : Char) : Bool := c = ' ' || c = '\t'

/-- The words of a line, `current` being the one under way, reversed. -/
def wordsFrom (current : List Char) : List Char → List (List Char)
  | [] => if current.isEmpty then [] else [current.reverse]
  | c :: cs =>
    if isBlank c then
      (if current.isEmpty then wordsFrom [] cs else current.reverse :: wordsFrom [] cs)
    else wordsFrom (c :: current) cs

/-- Mnemonics are "matched without regard to case" (R42). -/
def capital (c : Char) : Char :=
  if 97 ≤ c.toNat ∧ c.toNat ≤ 122 then Char.ofNat (c.toNat - 32) else c

/-- The word of a command line from its mnemonic and its literal's value (R42). -/
def assembleCommand (mnemonic : List Char) (v : Nat) : AsmResult :=
  let command (mk : Word → Instr) : AsmResult :=
    if literalInRange v then .word (encode (mk (BitVec.ofNat 64 v))) else .refused .outOfRange
  if mnemonic = ['B', 'U', 'I', 'L', 'D'] then command .build
  else if mnemonic = ['D', 'I', 'V'] then command .div
  else if mnemonic = ['R', 'E', 'D'] then command .red
  else if mnemonic = ['.', 'C', 'M', 'D'] then
    (match commandWord v with
    | .ok w => .word w
    | .error _ => .refused .outOfRange)
  else .refused .unknownMnemonic

/-- Whether a word is one of the four the syntax knows, `.cmd` among them (R42). -/
def knownMnemonic (mnemonic : List Char) : Bool :=
  decide (mnemonic ∈ [['B', 'U', 'I', 'L', 'D'], ['D', 'I', 'V'], ['R', 'E', 'D'],
    ['.', 'C', 'M', 'D']])

/-- One line: a mnemonic and one operand, nothing else (R42). -/
def assembleLine (line : List Char) : AsmResult :=
  match wordsFrom [] (withoutComment line) with
  | [] => .noCommand
  | mnemonic :: operands =>
    if knownMnemonic (mnemonic.map capital) then
      match operands with
      | [] => .refused .missingOperand
      | [operand] =>
        match literal operand with
        | some v => assembleCommand (mnemonic.map capital) v
        | none => .refused .badLiteral
      | _ :: _ :: _ => .refused .extraOperand
    else .refused .unknownMnemonic

/-- The name of a status (R40). -/
def statusName : Status → String
  | .ok => "OK"
  | .zeroDivisor => "ZERO_DIVISOR"
  | .noDivisor => "NO_DIVISOR"
  | .illegalOp => "ILLEGAL_OP"

/-- A response as text: `-> <STATUS name> <data>` (R42). -/
def responseText (r : RSP66) : String :=
  "-> " ++ statusName (responseStatus r) ++ " " ++ toString (responseData r).toNat

end Sys2Proof.Machine
end

