-- ==== Sys2Proof/Machine/Driver.lean ====
section
/-! DEFINITION. The host-side consumer of spec/43_host_driver_and_baselines.md: the two
pseudo-instructions `MULRED` and `FACTMOD`, which the host runs by issuing commands to the block
(R43, R70, R71), and the two baselines they are compared with (R73, R74). Nothing here is part of
the block. -/

namespace Sys2Proof.Machine

/-- The host issues a command: it presents the command's word as the next one and the block takes its
step (R6). -/
def issue (i : Instr) (s : State) : Host.Outcome State Fault Refusal :=
  step (presentNext (encode i) s)

/-- `MULRED a, b` (R70): the host forms `a * b` and issues `RED` with it. A product of `2^64` or more
does not fit the operand: it is refused, never truncated. -/
def mulred (a b : Word) (s : State) : Host.Outcome State Fault Refusal :=
  if a.toNat * b.toNat < 2 ^ 64 then issue (.red (BitVec.ofNat 64 (a.toNat * b.toNat))) s
  else .refused .productTooWide

/-- The state "accumulating" of `FACTMOD`, with `remaining` values of the index left, `i` the next:
`acc <- RED(acc * i)` for each (R71). The host uses no `DATA` whose `STATUS` is not `OK` (R91). -/
def factmodLoop : Nat → Word → Word → State → Host.Outcome (State × Word) Fault Refusal
  | 0, _, acc, s => .next (s, acc)
  | remaining + 1, i, acc, s =>
    match mulred acc i s with
    | .next s' =>
      match okData s' with
      | some data => factmodLoop remaining (i + 1) data s'
      | none => .fault .preconditionFailure
    | .fault f => .fault f
    | .refused r => .refused r

/-- `FACTMOD n_fact, mod` (R71): `BUILD mod`, then for `i = 1 .. n_fact` one `MULRED acc, i`, from
`acc = 1`; the result is the last `acc`, unchanged, as a `u64` (R77). If `BUILD` does not answer
`OK` the routine stops and has no result (R76 item 3). -/
def factmod (nFact modulus : Word) (s : State) : Host.Outcome (State × Word) Fault Refusal :=
  match issue (.build modulus) s with
  | .next s' =>
    match okData s' with
    | some _ => factmodLoop nFact.toNat 1 1 s'
    | none => .fault .preconditionFailure
  | .fault f => .fault f
  | .refused r => .refused r

/-- Strategy (a), the oracle: `(a * b) mod m` on mathematical integers, for `m >= 1` (R73). -/
def genericReduce (a b m : Nat) : Nat := a * b % m

/-- The oracle loop of R75 from `acc` on: `acc <- (acc * i) mod m` for `remaining` values of `i`. -/
def genericLoop (m : Nat) : Nat → Nat → Nat → Nat
  | 0, _, acc => acc
  | remaining + 1, i, acc => genericLoop m remaining (i + 1) (genericReduce acc i m)

/-- The oracle loop of R75: `acc <- 1`, then `acc <- (acc * i) mod m` for `i = 1 .. n`. -/
def genericFactmod (n m : Nat) : Nat := genericLoop m n 1 1

/-- The precondition of strategy (b): the divisor fits 32 bits, the product is a 64-bit dividend, and
the 64-by-32 division's quotient fits 32 bits, that is, the dividend's high half is below the
divisor (R74). DEDUCED (log entry 8): the source's wording is unclear and this is the standard
precondition it names. -/
def divisionPrecondition (a b m : Nat) : Bool :=
  decide (0 < m ∧ m < 2 ^ 32 ∧ a * b < 2 ^ 64 ∧ a * b / 2 ^ 32 < m)

/-- Strategy (b): the remainder of the host processor's 64-by-32 division where its precondition
holds, no meaning where it does not (R74). -/
def hardwareReduce (a b m : Nat) : Host.Outcome Nat Fault Refusal :=
  if divisionPrecondition a b m then .next (a * b % m) else .refused .divisionPrecondition

end Sys2Proof.Machine
end

