-- ==== Sys2Proof/Safety.lean ====
section
/-! DEFINITION. The terms claims are stated in: the state invariant of spec/10_state.md R15 in plain
arithmetic, the error term and the exactness domain of spec/40_fast_divisor_circuit.md R51 and
spec/41_fixed_point_reciprocal_multiplier.md R57, and what a safe run is. -/

namespace Sys2Proof.Safety

open Sys2Proof.Machine

/-- `shift_of(d)` as a number, for `d >= 1` (R46). -/
def shiftNumber (d : Nat) : Nat := if d = 1 then 0 else 64 + Nat.log2 (d - 1)

/-- `mult_of(d)` as a number, for `d >= 1`: exact floor division of the numerator (R47). -/
def multNumber (d : Nat) : Nat := (2 ^ shiftNumber d + d - 1) / d

/-- The registers hold the instance of a divisor: `M >= 1`, `SHIFT = shift_of(M)` and
`MULT = mult_of(M)`, as numbers and so without any narrowing (R15). -/
def HoldsInstance (s : State) : Prop :=
  1 ≤ s.m.toNat ∧ s.shift.toNat = shiftNumber s.m.toNat ∧ s.mult.toNat = multNumber s.m.toNat

/-- The state invariant: "either `VALID = 0`, or all of the following hold" (R15). -/
def Inv (s : State) : Prop := s.valid = true → HoldsInstance s

/-- The error term `e = MULT * M - 2^SHIFT`, an exact integer (R51). -/
def errorTerm (s : State) : Int := (s.mult.toNat : Int) * s.m.toNat - 2 ^ s.shift.toNat

/-- The exactness domain: the true quotient is returned "exactly when `n * e < (d - r) * 2^s`"
(R57). -/
def InExactnessDomain (n : Word) (s : State) : Prop :=
  (n.toNat : Int) * errorTerm s
    < ((s.m.toNat : Int) - (n.toNat % s.m.toNat : Nat)) * 2 ^ s.shift.toNat

/-- Two states agree on the four registers (R10). -/
def SameRegisters (s t : State) : Prop :=
  t.valid = s.valid ∧ t.m = s.m ∧ t.shift = s.shift ∧ t.mult = s.mult

/-- From `s` to `t` the block gave exactly one response, `{st, data}`, and took nothing further from
the host (R6). -/
def Answered (s t : State) (st : Status) (data : Word) : Prop :=
  t.responses = s.responses ++ [responseWord st data] ∧ t.pending = s.pending

/-- The command completes with the response `{st, data}` and that is all it does: no register and
nothing else of the state changes (R16, R85). -/
def OnlyAnswers (i : Instr) (s : State) (st : Status) (data : Word) : Prop :=
  exec i s = .next { s with responses := s.responses ++ [responseWord st data] }

/-- The host has presented exactly these commands (R19). -/
def Presents (s : State) (is : List Instr) : Prop :=
  s.pending = is.map fun i => .command (encode i)

/-- How a command fails where no instance is held and no `BUILD` with a non-zero operand is given
(R81 to R84, R97). -/
def failureWithoutInstance : Instr → Status
  | .reserved _ => .illegalOp
  | .build _ => .zeroDivisor
  | .div _ => .noDivisor
  | .red _ => .noDivisor

/-- A safe run: the machine answers every step, for as long as one likes (R101, "the block never
hangs"; R80, no traps). -/
def Safe (s : State) : Prop := ∀ k, ∃ t, Host.Core.run core k s = .next t

/-- `text` spells the number `v` in the given base: the digits of `v`, "optionally with `_` between
digits" (R42). That letters may be capital or small, and that any number of zeros may stand first,
is log entry 9. -/
def SpelledIn (base v : Nat) (text : List Char) : Prop :=
  ∃ groups : List (List Char), (∀ g ∈ groups, g ≠ []) ∧ text = List.intercalate ['_'] groups ∧
    ∃ zeros, groups.flatten.map Char.toLower = List.replicate zeros '0' ++ Nat.toDigits base v

/-- `text` is a literal for `v`: "decimal (`1000`) or hexadecimal with `0x` (`0x3E8`)" (R42). -/
def SpellsLiteral (v : Nat) (text : List Char) : Prop :=
  SpelledIn 10 v text ∨ ∃ t, text = '0' :: 'x' :: t ∧ SpelledIn 16 v t

/-- The space between two words of a line (R42). -/
def gap (k : Nat) : List Char := List.replicate (k + 1) ' '

/-- What may follow the last word of a line: spaces, and a comment from `;` to the end (R42). -/
def EndsLine (tail : List Char) : Prop :=
  ∃ k c, tail = List.replicate k ' ' ∨ tail = List.replicate k ' ' ++ ';' :: c

end Sys2Proof.Safety
end

