-- ==== Sys2Proof/Certificates/Slice0/Obligations.lean ====
section
/-! DEFINITION. The statements for the provers. Each docstring names the rules of spec/ it formalises. -/

open Sys2Proof Sys2Proof.Machine Sys2Proof.Safety

/-! ### Reset, steps and the order of commands -/

/-- R17, R96: after reset `VALID = 0`; with nothing presented and nothing answered, which are the
model's own fields (log entry 4). Nothing is said of `M`, `SHIFT` and `MULT`. -/
def Obligations.ResetHoldsNoInstance : Prop :=
  State.reset.valid = false ∧ State.reset.pending = [] ∧ State.reset.responses = []

/-- R15: the invariant holds after reset. -/
def Obligations.ResetSatisfiesStateInvariant : Prop := Inv State.reset

/-- R15: the invariant, in plain arithmetic, holds between any two steps: if it holds before a step it
holds after it, whatever the host presented. -/
def Obligations.StepKeepsStateInvariant : Prop :=
  ∀ s t : State, Inv s → step s = .next t → Inv t

/-- R6, R30: where a command word is presented, the step is the meaning of the decoded command on the
state with that word taken. THE MODEL'S CHOICE, the other two clauses and the list `pending` that
all three speak of: a step with nothing presented is idle (log entry 4, deduced from R89), and the
word that `withFetchWord` presents is the very next one run (log entry 5, deduced from R19). -/
def Obligations.StepRunsTheDecodedCommand : Prop :=
  (∀ (s : State) (w : CMD66) (rest : List HostEvent), s.pending = .command w :: rest →
      (decode w).wf = true ∧ step s = exec (decode w) { s with pending := rest }) ∧
  (∀ s : State, s.pending = [] → step s = .next s) ∧
  (∀ (s : State) (w : CMD66), step (s.withFetchWord 72 w.toNat) = exec (decode w) s)

/-- R6, R95, R101: every step is answered; a command gives exactly one response, a reset event none,
and each takes itself and nothing more from what is presented. THE MODEL'S CHOICE (log entry 4):
the lists `pending` and `responses` in which that is said, and the last clause, that a step with
nothing presented is idle, which is deduced from R89. -/
def Obligations.StepGivesOneResponsePerCommand : Prop :=
  ∀ s : State, ∃ t, step s = .next t ∧ t.pending = s.pending.tail ∧
    (∀ w rest, s.pending = .command w :: rest → ∃ r, t.responses = s.responses ++ [r]) ∧
    (∀ rest, s.pending = .reset :: rest → t.responses = s.responses) ∧
    (s.pending = [] → t = s)

/-- R80, R101: from every state every run goes on: no trap, no fault, no refusal, no hang. A step with
nothing presented is idle by the model's choice (log entry 4). -/
def Obligations.EveryStateIsSafe : Prop := ∀ s : State, Safe s

/-- R30: commands are executed one at a time in the order presented, and the `k`-th response is the
answer of the `k`-th command on the state the commands before it left; none is dropped,
duplicated or reordered. The two lists in which that is said are the model's own (log entry 4). -/
def Obligations.ResponsesFollowCommandOrder : Prop :=
  ∀ (ws : List CMD66) (s : State), s.pending = [] →
    ∃ t, Host.Core.run core ws.length (presentProgram ws s) = .next t ∧ t.pending = [] ∧
      t.responses.length = s.responses.length + ws.length ∧
      s.responses <+: t.responses ∧
      ∀ k (hk : k < ws.length), ∃ u v,
        Host.Core.run core k (presentProgram ws s) = .next u ∧
        u.responses = t.responses.take (s.responses.length + k) ∧
        exec (decode ws[k]) { u with pending := u.pending.tail } = .next v ∧
        v.responses = t.responses.take (s.responses.length + k + 1)

/-- R95, R96: the reset event clears `VALID`, gives no response and takes effect between commands. What
`M`, `SHIFT` and `MULT` then hold is open. -/
def Obligations.ResetEventDropsTheInstance : Prop :=
  ∀ (s : State) (rest : List HostEvent), s.pending = .reset :: rest →
    ∃ t, step s = .next t ∧ t.valid = false ∧ t.pending = rest ∧ t.responses = s.responses

/-- R95 says that "After reset the block is in the same state as after a `BUILD 0`", and R17 leaves `M`,
`SHIFT` and `MULT` without a value there. That they are EQUAL on the two paths is THE MODEL'S CHOICE
(log entry 2: one free value, a function of the draw and of the old contents, serves both); the
rules themselves give `VALID = 0` on both. -/
def Obligations.ResetEventLeavesWhatBuildZeroLeaves : Prop :=
  ∀ s : State, ∃ t u, step { s with pending := .reset :: s.pending } = .next t ∧
    exec (.build 0) s = .next u ∧ SameRegisters t u

/-! ### Encoding -/

/-- R35, R37: decode and encode agree, in both directions, and the encoded word is
`OP * 2^64 + IMM`. -/
def Obligations.DecodeAndEncodeAgree : Prop :=
  (∀ i : Instr, decode (encode i) = i) ∧ (∀ w : CMD66, encode (decode w) = w) ∧
  ∀ i : Instr, (encode i).toNat = (opcodeOf i).toNat * 2 ^ 64 + i.operand.toNat

/-- R37: a word is the command of a row exactly when it agrees with the row's match under its mask, its
operand being its low 64 bits; `OP` alone selects the command. -/
def Obligations.OpcodeMapSelectsByMask : Prop :=
  (∀ w : CMD66,
    ((w &&& 0x30000000000000000#66 = 0x00000000000000000#66 ↔
        decode w = .reserved (BitVec.ofNat 64 w.toNat)) ∧
      (w &&& 0x30000000000000000#66 = 0x10000000000000000#66 ↔
        decode w = .build (BitVec.ofNat 64 w.toNat)) ∧
      (w &&& 0x30000000000000000#66 = 0x20000000000000000#66 ↔
        decode w = .div (BitVec.ofNat 64 w.toNat)) ∧
      (w &&& 0x30000000000000000#66 = 0x30000000000000000#66 ↔
        decode w = .red (BitVec.ofNat 64 w.toNat)))) ∧
  (∀ w w' : CMD66, w.toNat / 2 ^ 64 = w'.toNat / 2 ^ 64 →
    opcodeOf (decode w) = opcodeOf (decode w')) ∧
  encode (.build 1000) = 0x100000000000003E8#66

/-- R37 and spec/95_test_vectors.md: command words written out decode to the commands they stand
for. -/
def Obligations.WrittenOutWordsDecode : Prop :=
  decode 0x00000000000000005#66 = .reserved 5 ∧
  decode 0x100000000000003E8#66 = .build 1000 ∧
  decode 0x20000000000375F00#66 = .div 3628800 ∧
  decode 0x3AAAAAAAAAAAAAAAD#66 = .red 0xAAAAAAAAAAAAAAAD ∧
  decode 0x1FFFFFFFFFFFFFFFF#66 = .build 0xFFFFFFFFFFFFFFFF

/-- R35, R41: every number below `2^66` is a command word and is decoded. THE MODEL'S CHOICE (log entry
10): every other number is refused by name, and a table word, of 72 bits in whole bytes, decodes
exactly where its bits from 66 up are 0. -/
def Obligations.ExactlyTheSixtySixBitNumbersDecode : Prop :=
  (∀ w : CMD66, decodeNumber w.toNat = .ok (decode w) ∧ decodeTableWord 72 w.toNat = some (decode w)) ∧
  ∀ v, 2 ^ 66 ≤ v →
    decodeNumber v = .error (.notACommandWord v) ∧ ∀ nbits, decodeTableWord nbits v = none

/-- R36: every command gives one response word, `STATUS * 2^64 + DATA`; `DATA` is the quotient of a
successful `DIV`, the remainder of a successful `RED`, 0 for a successful `BUILD` and 0 in every
error response. -/
def Obligations.ResponseWordCarriesStatusAndData : Prop :=
  ∀ (i : Instr) (s : State), ∃ t st data, exec i s = .next t ∧ Answered s t st data ∧
    (responseWord st data).toNat = st.code.toNat * 2 ^ 64 + data.toNat ∧
    responseStatus (responseWord st data) = st ∧ responseData (responseWord st data) = data ∧
    (st = .ok → ∀ n, i = .div n →
      data.toNat = n.toNat * s.mult.toNat / 2 ^ s.shift.toNat % 2 ^ 64) ∧
    (st = .ok → ∀ n, i = .red n → data = n - quotient n s * s.m) ∧
    (∀ d, i = .build d → data = 0) ∧ (st ≠ .ok → data = 0)

/-- R40: which status a command raises: `OK`, `ZERO_DIVISOR`, `NO_DIVISOR` and `ILLEGAL_OP`, with their
codes. -/
def Obligations.StatusCodeOfEachCommand : Prop :=
  (Status.ok.code = 0b00#2 ∧ Status.zeroDivisor.code = 0b01#2 ∧ Status.noDivisor.code = 0b10#2 ∧
    Status.illegalOp.code = 0b11#2) ∧
  ∀ (i : Instr) (s : State), ∃ t st data, exec i s = .next t ∧ Answered s t st data ∧
    (st = .ok ↔ (∃ d, i = .build d ∧ d ≠ 0) ∨
      (s.valid = true ∧ ∃ n, i = .div n ∨ i = .red n)) ∧
    (st = .zeroDivisor ↔ i = .build 0) ∧
    (st = .noDivisor ↔ s.valid = false ∧ ∃ n, i = .div n ∨ i = .red n) ∧
    (st = .illegalOp ↔ ∃ imm, i = .reserved imm)

/-! ### BUILD -/

/-- R45, for `d != 0`: `BUILD d` completes with `{OK, 0}`, writes the four registers together, as
numbers that nothing was cut from, and changes nothing else. -/
def Obligations.BuildWritesTheInstance : Prop :=
  ∀ (d : Word) (s : State), d ≠ 0 → ∃ t, exec (.build d) s = .next t ∧
    t.valid = true ∧ t.m = d ∧ t.shift.toNat = shiftNumber d.toNat ∧
    t.mult.toNat = multNumber d.toNat ∧
    Answered s t .ok 0 ∧ t.draws = s.draws

/-- R81: `BUILD 0` clears `VALID` and answers `{0b01, 0}`; no other command answers so. What `M`,
`SHIFT` and `MULT` then hold is open. -/
def Obligations.BuildZeroDropsTheInstance : Prop :=
  (∀ s : State, ∃ t, exec (.build 0) s = .next t ∧ t.valid = false ∧
    t.responses = s.responses ++ [0x10000000000000000#66] ∧ t.pending = s.pending) ∧
  ∀ (i : Instr) (s t : State), exec i s = .next t →
    t.responses = s.responses ++ [0x10000000000000000#66] → i = .build 0

/-- R46: `shift_of`, by the formula, by its table, and by its two equivalent forms. -/
def Obligations.ShiftIsSixtyFourPlusLogOfDivisor : Prop :=
  (shiftOf 1).toNat = 0 ∧
  (∀ d : Word, 2 ≤ d.toNat →
    (shiftOf d).toNat = 64 + Nat.log2 (d.toNat - 1) ∧
    (shiftOf d).toNat = 64 + (63 - (BitVec.clz (d - 1)).toNat) ∧
    (shiftOf d).toNat = 63 + Nat.clog 2 d.toNat) ∧
  ∀ (d : Word) (k : Nat), k ≤ 63 → 2 ^ k + 1 ≤ d.toNat → d.toNat ≤ 2 ^ (k + 1) →
    (shiftOf d).toNat = 64 + k

/-- R47: `mult_of(d)` is the exact floor of the 128-bit numerator by `d`, which is the ceiling of
`2^s / d`. -/
def Obligations.MultiplierIsTheReciprocalRoundedUp : Prop :=
  ∀ d : Word, d ≠ 0 →
    (numeratorOf d).toNat = 2 ^ (shiftOf d).toNat + d.toNat - 1 ∧
    (multOf d).toNat = (2 ^ (shiftOf d).toNat + d.toNat - 1) / d.toNat ∧
    ∀ q : Nat, (multOf d).toNat ≤ q ↔ 2 ^ (shiftOf d).toNat ≤ q * d.toNat

/-- R48: the ranges of the two functions: `SHIFT` is 0 or `64 .. 127`; the reciprocal, before any
narrowing, fits 64 bits and for `d >= 2` has bit 63 set; it is `2^63` exactly at the powers of
two, and largest at `2^63 + 1`. -/
def Obligations.ConstructionResultsFitTheirRegisters : Prop :=
  ((shiftOf 1).toNat = 0 ∧ (multOf 1).toNat = 1) ∧
  (∀ d : Word, 2 ≤ d.toNat → ∃ k, k ≤ 63 ∧ k = Nat.log2 (d.toNat - 1) ∧
    2 ^ k + 1 ≤ d.toNat ∧ d.toNat ≤ 2 ^ (k + 1) ∧
    64 ≤ (shiftOf d).toNat ∧ (shiftOf d).toNat = 64 + k ∧ (shiftOf d).toNat ≤ 127 ∧
    2 ^ 63 ≤ (floorDiv128 (numeratorOf d) (zext128 d)).toNat ∧
    (floorDiv128 (numeratorOf d) (zext128 d)).toNat ≤ 2 ^ 64 - 1 ∧
    (multOf d).toNat = (floorDiv128 (numeratorOf d) (zext128 d)).toNat ∧
    (multOf d).getLsbD 63 = true ∧
    ((multOf d).toNat = 2 ^ 63 ↔ d.toNat = 2 ^ (k + 1))) ∧
  (multOf 0x8000000000000001).toNat = 2 ^ 64 - 1

/-- R49: the numerator never overflows 128 bits; the largest is at `d = 2^64 - 1`; a 64-bit numerator
would not do. -/
def Obligations.NumeratorFitsInOneHundredTwentyEightBits : Prop :=
  (∀ d : Word, d ≠ 0 →
    (numeratorOf d).toNat = 2 ^ (shiftOf d).toNat + d.toNat - 1 ∧
    (numeratorOf d).toNat ≤ 2 ^ 127 + 2 ^ 64 - 2 ∧
    (oneShiftLeft128 (shiftOf d)).toNat = 2 ^ (shiftOf d).toNat ∧
    2 ^ (shiftOf d).toNat ≤ 2 ^ 127) ∧
  (numeratorOf 0xFFFFFFFFFFFFFFFF).toNat = 2 ^ 127 + 2 ^ 64 - 2 ∧
  (shiftOf 0xFFFFFFFFFFFFFFFF).toNat = 127 ∧
  2 ^ 127 + 2 ^ 64 - 2 < 2 ^ 128 ∧
  ∀ d : Word, 2 ≤ d.toNat → 2 ^ 64 ≤ 2 ^ (shiftOf d).toNat

/-- R50: the degenerate divisor: `SHIFT = 0` and `MULT = 1`; 1 is the only multiplier under which `DIV`
returns `n` and `RED` returns 0 for every `n`; and 1 is the only divisor whose multiplier has bit
63 clear. -/
def Obligations.DivisorOneHasUnitReciprocal : Prop :=
  shiftOf 1 = 0 ∧ multOf 1 = 1 ∧
  (∀ s : State, s.valid = true → s.m = 1 → s.shift = 0 →
    ((∀ n, OnlyAnswers (.div n) s .ok n ∧ OnlyAnswers (.red n) s .ok 0) ↔ s.mult = 1)) ∧
  ∀ d : Word, d ≠ 0 → ((multOf d).getLsbD 63 = false ↔ d = 1)

/-- R51: the error term `e = MULT * M - 2^SHIFT` of a constructed instance: its range, its residue, when
it is 0, and how far the stored reciprocal is above the true one. -/
def Obligations.ErrorTermOfTheReciprocal : Prop :=
  ∀ s : State, HoldsInstance s →
    (0 ≤ errorTerm s ∧ errorTerm s ≤ (s.m.toNat : Int) - 1) ∧
    errorTerm s = ((2 ^ s.shift.toNat * (s.m.toNat - 1) % s.m.toNat : Nat) : Int) ∧
    (errorTerm s = 0 ↔ ∃ j : Nat, s.m.toNat = 2 ^ j) ∧
    (s.mult.toNat : Rat) / 2 ^ s.shift.toNat =
      1 / s.m.toNat + (errorTerm s : Rat) / (s.m.toNat * 2 ^ s.shift.toNat) ∧
    (1 : Rat) / s.m.toNat ≤ (s.mult.toNat : Rat) / 2 ^ s.shift.toNat ∧
    (s.mult.toNat : Rat) / 2 ^ s.shift.toNat < 1 / s.m.toNat + 1 / 2 ^ s.shift.toNat

/-- R52: what `BUILD d` answers, and for `d != 0` the registers it leaves, do not depend on the state
before; for `d = 0` no instance is left, whatever was there. -/
def Obligations.BuildForgetsTheOldInstance : Prop :=
  ∀ (d : Word) (s s' : State), ∃ t t' st, exec (.build d) s = .next t ∧
    exec (.build d) s' = .next t' ∧ Answered s t st 0 ∧ Answered s' t' st 0 ∧
    (d ≠ 0 → SameRegisters t t') ∧ (d = 0 → t.valid = false ∧ t'.valid = false)

/-! ### DIV -/

/-- R55: in every state that holds an instance, reachable or not, `DIV n` completes with `{OK, q}`, `q`
being the shifted product cut to 64 bits, and changes nothing else; `M` has no part in it. -/
def Obligations.DivAnswersTheShiftedProduct : Prop :=
  ∀ (n : Word) (s : State), s.valid = true →
    ∃ q : Word, OnlyAnswers (.div n) s .ok q ∧
      q.toNat = n.toNat * s.mult.toNat / 2 ^ s.shift.toNat % 2 ^ 64 ∧
      ∀ m : Word, OnlyAnswers (.div n) { s with m := m } .ok q

/-- R56: no step of `DIV` loses a bit: the product fits 128 bits, the shifted value of an instance fits
64, and for `SHIFT >= 64` it is the product's high half shifted by the rest. -/
def Obligations.DivLosesNoBit : Prop :=
  ∀ (n : Word) (s : State),
    ((umul128 n s.mult).toNat = n.toNat * s.mult.toNat ∧ n.toNat * s.mult.toNat < 2 ^ 128) ∧
    (HoldsInstance s →
      (shiftRight128 (umul128 n s.mult) s.shift).toNat < 2 ^ 64 ∧
      (trunc64 (shiftRight128 (umul128 n s.mult) s.shift)).toNat =
        (shiftRight128 (umul128 n s.mult) s.shift).toNat) ∧
    (64 ≤ s.shift.toNat →
      s.shift.toNat - 64 ≤ 63 ∧
      trunc64 (shiftRight128 (umul128 n s.mult) s.shift) =
        (umul128 n s.mult).extractLsb' 64 64 >>> (s.shift.toNat - 64))

/-- R57: the exact characterisation: `DIV` of an instance returns the true quotient or one more, one
more exactly when `n * e >= (d - r) * 2^s`, that is, when `r = d - 1` and `n * e >= 2^s`; and some
dividend is inexact exactly when the largest one with remainder `d - 1` is. -/
def Obligations.DivIsTheTrueQuotientOrOneMore : Prop :=
  ∀ s : State, s.valid = true → HoldsInstance s →
    (∀ n : Word, ∃ (q : Word) (c : Nat), OnlyAnswers (.div n) s .ok q ∧
      q.toNat = n.toNat / s.m.toNat + c ∧ c ≤ 1 ∧
      (c = 1 ↔ ((s.m.toNat : Int) - (n.toNat % s.m.toNat : Nat)) * 2 ^ s.shift.toNat
        ≤ n.toNat * errorTerm s) ∧
      (c = 0 ↔ InExactnessDomain n s) ∧
      (c = 1 ↔ n.toNat % s.m.toNat = s.m.toNat - 1 ∧
        (2 : Int) ^ s.shift.toNat ≤ n.toNat * errorTerm s)) ∧
    ∀ nmax : Word, nmax.toNat % s.m.toNat = s.m.toNat - 1 →
      (∀ n : Word, n.toNat % s.m.toNat = s.m.toNat - 1 → n.toNat ≤ nmax.toNat) →
      ((∃ n : Word, ¬ InExactnessDomain n s) ↔ ¬ InExactnessDomain nmax s)

/-- R58: each of the four conditions makes `DIV` exact, `n < 2^63` for every divisor among them; and an
inexact result needs `e > 2^(SHIFT-64)` and `n >= 2^SHIFT / e > 2^63`. The bounds with a division
are written multiplied out. -/
def Obligations.DivIsExactUnderTheSufficientConditions : Prop :=
  ∀ (n : Word) (s : State), s.valid = true → HoldsInstance s →
    ((n.toNat * errorTerm s < 2 ^ s.shift.toNat ∨ n.toNat < 2 ^ 63 ∨
        errorTerm s * 2 ^ 64 ≤ 2 ^ s.shift.toNat ∨ ∃ j : Nat, s.m.toNat = 2 ^ j) →
      InExactnessDomain n s ∧
      ∃ q : Word, OnlyAnswers (.div n) s .ok q ∧ q.toNat = n.toNat / s.m.toNat) ∧
    (¬ InExactnessDomain n s →
      2 ^ s.shift.toNat < errorTerm s * 2 ^ 64 ∧ 2 ^ s.shift.toNat ≤ n.toNat * errorTerm s ∧
      2 ^ 63 * errorTerm s < 2 ^ s.shift.toNat)

/-- R58: which divisors up to 64 have an inexact dividend, some that have none and some that have, and
the smallest inexact dividend of 7. -/
def Obligations.DivisorsWithAnInexactDividend : Prop :=
  (∀ (s : State) (d : Word), 1 ≤ d.toNat → d.toNat ≤ 64 →
    ((∃ n : Word, quotient n (constructInstance d s) ≠ n / d) ↔
      d.toNat ∈ [7, 14, 21, 23, 25, 28, 29, 31, 39, 42, 46, 47, 49, 50, 53, 55, 56, 58, 61, 62, 63])) ∧
  (∀ (s : State) (d : Word), d ∈ [(1 : Word), 3, 5, 6, 9, 10, 11, 12, 13, 0xFFFFFFFF, 0x100000001,
      65537, 998244353, 1000000007, 0x8000000000000001, 0xFFFFFFFFFFFFFFFF] →
    ∀ n : Word, quotient n (constructInstance d s) = n / d) ∧
  (∀ (s : State) (d : Word), d ∈ [(1000 : Word), 0x7FFFFFFFFFFFFFFF, 0xFFFFFFFFFFFFFFFE] →
    ∃ n : Word, quotient n (constructInstance d s) ≠ n / d) ∧
  ∀ s : State,
    quotient 0xAAAAAAAAAAAAAAAD (constructInstance 7 s) = 1756832768924719202 ∧
    (0xAAAAAAAAAAAAAAAD : Word) / 7 = 1756832768924719201 ∧
    ∀ n : Word, n.toNat < 0xAAAAAAAAAAAAAAAD → quotient n (constructInstance 7 s) = n / 7

/-- R60: the special divisors of `DIV`: 1, the powers of two, a divisor above the dividend, and
`2^64 - 1`. -/
def Obligations.DivBySpecialDivisors : Prop :=
  ∀ (n : Word) (s : State), s.valid = true → HoldsInstance s →
    (s.m = 1 → s.shift = 0 ∧ s.mult = 1 ∧ OnlyAnswers (.div n) s .ok n) ∧
    (∀ j : Nat, 1 ≤ j → j ≤ 63 → s.m.toNat = 2 ^ j →
      s.shift.toNat = 63 + j ∧ s.mult.toNat = 2 ^ 63 ∧ OnlyAnswers (.div n) s .ok (n >>> j) ∧
      (n >>> j).toNat = n.toNat / 2 ^ j) ∧
    (n.toNat < s.m.toNat → n.toNat < 2 ^ 63 → OnlyAnswers (.div n) s .ok 0) ∧
    (s.m = 0xFFFFFFFFFFFFFFFF →
      (n = 0xFFFFFFFFFFFFFFFF → OnlyAnswers (.div n) s .ok 1) ∧
      (n ≠ 0xFFFFFFFFFFFFFFFF → OnlyAnswers (.div n) s .ok 0))

/-! ### RED -/

/-- R62: in every state that holds an instance, reachable or not, `RED n` completes with `{OK, y}`,
`y = (n - q * M) mod 2^64` for the `DIV` result `q`, and changes nothing else. -/
def Obligations.RedAnswersTheWrappedDifference : Prop :=
  ∀ (n : Word) (s : State), s.valid = true →
    ∃ q y : Word, OnlyAnswers (.div n) s .ok q ∧ OnlyAnswers (.red n) s .ok y ∧
      (y.toNat : Int) = ((n.toNat : Int) - q.toNat * s.m.toNat) % 2 ^ 64

/-- R63: the correction is computed modulo `2^64`, whichever of its two steps is narrowed first, with no
trap and nothing recorded; and where `DIV` is exact nothing is cut and nothing borrowed. -/
def Obligations.RedCorrectionWrapsAtSixtyFourBits : Prop :=
  ∀ (n : Word) (s : State),
    (s.valid = true → OnlyAnswers (.red n) s .ok (remainder n s)) ∧
    ((mulLow64 (quotient n s) s.m).toNat = (quotient n s).toNat * s.m.toNat % 2 ^ 64 ∧
      ((remainder n s).toNat : Int) =
        ((n.toNat : Int) - (mulLow64 (quotient n s) s.m).toNat) % 2 ^ 64 ∧
      ((remainder n s).toNat : Int) =
        ((n.toNat : Int) - (quotient n s).toNat * s.m.toNat) % 2 ^ 64) ∧
    ((quotient n s).toNat = n.toNat / s.m.toNat →
      (quotient n s).toNat * s.m.toNat ≤ n.toNat ∧
      (mulLow64 (quotient n s) s.m).toNat = (quotient n s).toNat * s.m.toNat ∧
      (remainder n s).toNat = n.toNat - (quotient n s).toNat * s.m.toNat)

/-- R64: `RED` of an instance returns the true remainder where `DIV` is exact and `2^64 - 1` where it is
not, and that value nowhere else; it is exact wherever the remainder is not `M - 1`, and under each
condition of R58; and the rule's example, divisor 7. -/
def Obligations.RedIsTheRemainderOrAllOnes : Prop :=
  ∀ (n : Word) (s : State), s.valid = true → HoldsInstance s →
    ∃ y : Word, OnlyAnswers (.red n) s .ok y ∧
      (InExactnessDomain n s → y.toNat = n.toNat % s.m.toNat) ∧
      (¬ InExactnessDomain n s → y = 0xFFFFFFFFFFFFFFFF) ∧
      (y = 0xFFFFFFFFFFFFFFFF ↔ ¬ InExactnessDomain n s) ∧
      (n.toNat % s.m.toNat ≠ s.m.toNat - 1 → y.toNat = n.toNat % s.m.toNat) ∧
      (s.m.toNat ∣ n.toNat → y = 0) ∧
      ((n.toNat * errorTerm s < 2 ^ s.shift.toNat ∨ n.toNat < 2 ^ 63 ∨
        errorTerm s * 2 ^ 64 ≤ 2 ^ s.shift.toNat ∨ ∃ j : Nat, s.m.toNat = 2 ^ j) →
        y.toNat = n.toNat % s.m.toNat) ∧
      (s.m = 7 → n = 0xAAAAAAAAAAAAAAAD → y = 0xFFFFFFFFFFFFFFFF ∧ n.toNat % 7 = 6)

/-- R65 items 1 to 3: `RED` by 1 is 0, by `2^j` the low `j` bits, and always agrees with `DIV` on the
same instance. -/
def Obligations.RedBySpecialDivisors : Prop :=
  ∀ (n : Word) (s : State), s.valid = true → HoldsInstance s →
    (s.m = 1 → OnlyAnswers (.red n) s .ok 0) ∧
    (∀ j : Nat, 1 ≤ j → j ≤ 63 → s.m.toNat = 2 ^ j →
      ∃ y : Word, OnlyAnswers (.red n) s .ok y ∧ y.toNat = n.toNat % 2 ^ j) ∧
    ∃ q y : Word, OnlyAnswers (.div n) s .ok q ∧ OnlyAnswers (.red n) s .ok y ∧ y = n - q * s.m

/-- R99: the exactness obligation: an inexact result is answered with `OK`, quotient one too large and
remainder `2^64 - 1`; dividends below `2^63` and divisors with `e <= 2^(SHIFT-64)` are safe; and
`RED`'s `DATA = 2^64 - 1`, equivalently `DATA >= M`, detects the case, the true remainder then
being `M - 1` and the true quotient the `DIV` result less 1. -/
def Obligations.InexactResultsAreDetectableByRed : Prop :=
  ∀ (n : Word) (s : State), s.valid = true → HoldsInstance s →
    ∃ q y : Word, OnlyAnswers (.div n) s .ok q ∧ OnlyAnswers (.red n) s .ok y ∧
      (n.toNat < 2 ^ 63 ∨ errorTerm s * 2 ^ 64 ≤ 2 ^ s.shift.toNat →
        q.toNat = n.toNat / s.m.toNat ∧ y.toNat = n.toNat % s.m.toNat) ∧
      (InExactnessDomain n s ↔
        q.toNat = n.toNat / s.m.toNat ∧ y.toNat = n.toNat % s.m.toNat) ∧
      (y = 0xFFFFFFFFFFFFFFFF ↔ s.m.toNat ≤ y.toNat) ∧
      (y = 0xFFFFFFFFFFFFFFFF ↔
        ¬ (q.toNat = n.toNat / s.m.toNat ∧ y.toNat = n.toNat % s.m.toNat)) ∧
      (y = 0xFFFFFFFFFFFFFFFF →
        n.toNat % s.m.toNat = s.m.toNat - 1 ∧ n.toNat / s.m.toNat = q.toNat - 1 ∧ 1 ≤ q.toNat)

/-! ### Errors -/

/-- R82: `DIV` and `RED` answer `{0b10, 0}` and change no register exactly while `VALID = 0`, whatever
the operand; no other command answers so. -/
def Obligations.NoDivisorWhileNotValid : Prop :=
  (∀ (n : Word) (s : State), s.valid = false →
    OnlyAnswers (.div n) s .noDivisor 0 ∧ OnlyAnswers (.red n) s .noDivisor 0) ∧
  (responseWord .noDivisor 0 = 0x20000000000000000#66) ∧
  ∀ (i : Instr) (s t : State) (data : Word), exec i s = .next t → Answered s t .noDivisor data →
    s.valid = false ∧ ∃ n, i = .div n ∨ i = .red n

/-- R39, R83: every word with `OP = 0b00` answers `{0b11, 0}` and changes no register, whatever its
operand and whatever `VALID`; no other command answers so. -/
def Obligations.ReservedOpcodeIsIllegal : Prop :=
  (∀ (imm : Word) (s : State), OnlyAnswers (.reserved imm) s .illegalOp 0) ∧
  (∀ (w : CMD66) (s : State), w.toNat < 2 ^ 64 → OnlyAnswers (decode w) s .illegalOp 0) ∧
  (responseWord .illegalOp 0 = 0x30000000000000000#66) ∧
  ∀ (i : Instr) (s t : State) (data : Word), exec i s = .next t → Answered s t .illegalOp data →
    ∃ imm, i = .reserved imm

/-- R85: what an error changes: `ILLEGAL_OP` and `NO_DIVISOR` nothing, `ZERO_DIVISOR` `VALID` and the
value registers alone. -/
def Obligations.ErrorsChangeNothingButValid : Prop :=
  ∀ (i : Instr) (s t : State) (st : Status) (data : Word), exec i s = .next t →
    Answered s t st data → st ≠ .ok →
    ((st = .illegalOp ∨ st = .noDivisor) → SameRegisters s t ∧ t.draws = s.draws) ∧
    (st = .zeroDivisor → t.valid = false) ∧ data = 0

/-- R86: after an error the block goes on: the failed command repeated fails again in the same way, and
a `BUILD` with a non-zero operand makes the next `DIV` and `RED` succeed. -/
def Obligations.ErrorsRepeatUntilABuild : Prop :=
  ∀ (i : Instr) (s t : State) (st : Status) (data : Word), exec i s = .next t →
    Answered s t st data → st ≠ .ok →
    (∃ u, exec i t = .next u ∧ Answered t u st data) ∧
    ∀ (d n : Word), d ≠ 0 → ∃ u q y, exec (.build d) t = .next u ∧ Answered t u .ok 0 ∧
      OnlyAnswers (.div n) u .ok q ∧ OnlyAnswers (.red n) u .ok y

/-- R97: from a state without an instance, and as long as no `BUILD` with a non-zero operand is
presented, no command succeeds, and every `DIV` and `RED` answers `NO_DIVISOR`. -/
def Obligations.NothingSucceedsBeforeABuild : Prop :=
  ∀ (is : List Instr) (s : State), s.valid = false → Presents s is →
    (∀ d, .build d ∈ is → d = 0) →
    ∃ t, Host.Core.run core is.length s = .next t ∧ t.valid = false ∧
      t.responses = s.responses ++ is.map fun i => responseWord (failureWithoutInstance i) 0

/-! ### Frames -/

/-- R14, R16, R28: `DIV`, `RED` and a reserved command change nothing at all but that one response is
added: no register, no draw, nothing of what is presented. -/
def Obligations.ReadingCommandsOnlyRespond : Prop :=
  ∀ (i : Instr) (s t : State), (∀ d, i ≠ .build d) → exec i s = .next t →
    SameRegisters s t ∧ t.pending = s.pending ∧ t.draws = s.draws ∧
    t.responses.length = s.responses.length + 1 ∧ s.responses <+: t.responses

/-- R16, R28: `BUILD` changes the registers and adds one response; nothing presented is lost, and no
earlier response; and for `d != 0` no value is left open. -/
def Obligations.BuildChangesOnlyRegisters : Prop :=
  ∀ (d : Word) (s t : State), exec (.build d) s = .next t →
    t.pending = s.pending ∧ t.responses.length = s.responses.length + 1 ∧
    s.responses <+: t.responses ∧ (d ≠ 0 → t.draws = s.draws)

/-- R14: `VALID` is set by a `BUILD` whose operand is not 0, cleared by a `BUILD 0` and by reset, and
changed by nothing else; R16: the value registers change by these three alone. -/
def Obligations.OnlyBuildAndResetChangeRegisters : Prop :=
  ∀ s t : State, step s = .next t →
    (s.valid = false → t.valid = true →
      ∃ d rest, d ≠ 0 ∧ s.pending = .command (encode (.build d)) :: rest) ∧
    (s.valid = true → t.valid = false →
      ∃ rest, s.pending = .reset :: rest ∨ s.pending = .command (encode (.build 0)) :: rest) ∧
    ((∀ d rest, s.pending ≠ .command (encode (.build d)) :: rest) →
      (∀ rest, s.pending ≠ .reset :: rest) → SameRegisters s t)

/-- R21, R65 item 4, R90: on one instance any sequence of `DIV` and `RED` commands leaves the registers
as they are, and each answers what it would answer alone, in whatever order they come. -/
def Obligations.ReadingCommandsAreIndependent : Prop :=
  ∀ (is : List Instr) (s : State), s.valid = true → Presents s is →
    (∀ i ∈ is, ∃ n, i = .div n ∨ i = .red n) →
    ∃ (t : State) (answers : List Word), Host.Core.run core is.length s = .next t ∧
      SameRegisters s t ∧ answers.length = is.length ∧
      t.responses = s.responses ++ answers.map (responseWord .ok) ∧
      ∀ k (hk : k < is.length) (hk' : k < answers.length), OnlyAnswers is[k] s .ok answers[k]

/-- R30 item 1, R52, R98: after a successful `BUILD d` every command that is no `BUILD` leaves the
instance of `d` in place, so each later `DIV` and `RED` uses it. -/
def Obligations.InstanceLastsUntilTheNextBuild : Prop :=
  ∀ (d : Word) (is : List Instr) (s : State), d ≠ 0 → Presents s (.build d :: is) →
    (∀ i ∈ is, ∀ d', i ≠ .build d') →
    ∃ t, Host.Core.run core (is.length + 1) s = .next t ∧
      t.valid = true ∧ t.m = d ∧ HoldsInstance t

/-! ### The diagnostic port, the host's routines, the assembler -/

/-- R22: the diagnostic port exists only if `HAS_DIAG_PORT`; it shows `VALID`, and while `VALID = 1` the
three values. -/
def Obligations.DiagnosticPortShowsTheInstance : Prop :=
  ∀ (reading : Nat) (s : State),
    diagPort { hasDiagPort := false } reading s = none ∧
    ∃ v, diagPort { hasDiagPort := true } reading s = some v ∧ v.valid = s.valid ∧
      (s.valid = true → v.m = s.m ∧ v.shift = s.shift ∧ v.mult = s.mult)

/-- R70 for what is computed, log entry 7 for how: that the routine's command goes ahead of what else is
presented, takes one step, and gives a `DATA` only with `OK` is THE MODEL'S CHOICE.
`MULRED a, b` issues `RED (a * b)`: `(a * b) mod M` whenever the product is in the exactness
domain, in particular below `2^63`; a product of `2^64` or more is refused; without an instance it
answers `NO_DIVISOR`. -/
def Obligations.MulredReducesTheProduct : Prop :=
  ∀ (a b : Word) (s : State),
    (2 ^ 64 ≤ a.toNat * b.toNat → mulred a b s = .refused .productTooWide) ∧
    (a.toNat * b.toNat < 2 ^ 64 → mulred a b s = exec (.red (a * b)) s) ∧
    (a.toNat * b.toNat < 2 ^ 64 → s.valid = false →
      ∃ t, mulred a b s = .next t ∧ Answered s t .noDivisor 0) ∧
    (a.toNat * b.toNat < 2 ^ 64 → s.valid = true → HoldsInstance s →
      ∃ t data, mulred a b s = .next t ∧ SameRegisters s t ∧ okData t = some data ∧
        (InExactnessDomain (a * b) s → data.toNat = genericReduce a.toNat b.toNat s.m.toNat) ∧
        (a.toNat * b.toNat < 2 ^ 63 → data.toNat = genericReduce a.toNat b.toNat s.m.toNat))

/-- R72, R75: within the bound `max(1, mod - 1) * n_fact < 2^63`, `FACTMOD` returns what the oracle loop
returns, which for `n_fact >= 1` is `n_fact! mod mod`. That it does so from every state, also with
other events presented, is THE MODEL'S CHOICE (log entry 7: the routine's commands go ahead of
them). -/
def Obligations.FactmodAgreesWithTheOracle : Prop :=
  ∀ (nFact modulus : Word) (s : State), modulus ≠ 0 →
    max 1 (modulus.toNat - 1) * nFact.toNat < 2 ^ 63 →
    ∃ t data, factmod nFact modulus s = .next (t, data) ∧
      data.toNat = genericFactmod nFact.toNat modulus.toNat ∧
      (1 ≤ nFact.toNat → data.toNat = Nat.factorial nFact.toNat % modulus.toNat) ∧
      t.responses.length = s.responses.length + 1 + nFact.toNat

/-- R76: the corner cases of `FACTMOD`: `n_fact = 0` returns 1; `mod = 1` with `n_fact >= 1` returns 0,
as does every `RED`; `mod = 0` stops with a precondition failure; and the block keeps the instance.
That the failure is the fault `preconditionFailure` of the routine, and that its commands go ahead
of what else is presented, is THE MODEL'S CHOICE (log entry 7). -/
def Obligations.FactmodCornerCases : Prop :=
  (∀ (modulus : Word) (s : State), modulus ≠ 0 →
    ∃ t, factmod 0 modulus s = .next (t, 1) ∧
      t.responses = s.responses ++ [responseWord .ok 0]) ∧
  (∀ (nFact : Word) (s : State), 1 ≤ nFact.toNat → ∃ t, factmod nFact 1 s = .next (t, 0) ∧
    t.responses = s.responses ++ List.replicate (1 + nFact.toNat) (responseWord .ok 0)) ∧
  (∀ (nFact : Word) (s : State), factmod nFact 0 s = .fault .preconditionFailure) ∧
  ∀ (nFact modulus data : Word) (s t : State), factmod nFact modulus s = .next (t, data) →
    t.valid = true ∧ t.m = modulus

/-- R73, R74: strategy (b) returns what strategy (a) returns where its precondition holds, and is refused
everywhere else: a divisor 0 or of more than 32 bits, a product of more than 64 bits, a high half
not below the divisor. The precondition in this form is the model's reading of R74's wording
(log entry 8). -/
def Obligations.HardwareStrategyAgreesWithTheOracle : Prop :=
  ∀ a b m : Nat,
    (0 < m → m < 2 ^ 32 → a * b < 2 ^ 64 → a * b / 2 ^ 32 < m →
      hardwareReduce a b m = .next (genericReduce a b m) ∧ a * b / m < 2 ^ 32) ∧
    (m = 0 ∨ 2 ^ 32 ≤ m ∨ 2 ^ 64 ≤ a * b ∨ m ≤ a * b / 2 ^ 32 →
      hardwareReduce a b m = .refused .divisionPrecondition)

/-- R42: a command line with one literal, decimal or hexadecimal and of any size, is the word the syntax
names, or is refused where the literal is out of range; a negative literal, a missing operand and
an extra operand, which is a further word after a space, are refused. The mnemonic is "matched
without regard to case", spaces and a comment may follow, and the literal may have `_` between its
digits. THE MODEL'S CHOICE (log entry 9): that a hexadecimal digit may be a small letter as well as
a capital, that zeros may stand before a literal's digits in either base, that `.cmd` is matched in
either case too, that a tab parts words as a space does, and which complaint a refusal names. -/
def Obligations.AssemblerRefusesLiteralsOutOfRange : Prop :=
  ∀ (mnemonic text tail : List Char) (v k : Nat), SpellsLiteral v text → EndsLine tail →
    (∀ row ∈ [(['B', 'U', 'I', 'L', 'D'], 1), (['D', 'I', 'V'], 2), (['R', 'E', 'D'], 3)],
      mnemonic.map Char.toUpper = row.1 →
      (v < 2 ^ 64 → assembleLine (mnemonic ++ gap k ++ text ++ tail) =
        .word (BitVec.ofNat 66 (row.2 * 2 ^ 64 + v))) ∧
      (2 ^ 64 ≤ v → assembleLine (mnemonic ++ gap k ++ text ++ tail) = .refused .outOfRange)) ∧
    (mnemonic.map Char.toUpper = ['.', 'C', 'M', 'D'] →
      (v < 2 ^ 66 → assembleLine (mnemonic ++ gap k ++ text ++ tail) =
        .word (BitVec.ofNat 66 v)) ∧
      (2 ^ 66 ≤ v → assembleLine (mnemonic ++ gap k ++ text ++ tail) = .refused .outOfRange)) ∧
    (mnemonic.map Char.toUpper ∈
        [['B', 'U', 'I', 'L', 'D'], ['D', 'I', 'V'], ['R', 'E', 'D'], ['.', 'C', 'M', 'D']] →
      assembleLine (mnemonic ++ gap k ++ '-' :: text ++ tail) = .refused .badLiteral ∧
      assembleLine (mnemonic ++ tail) = .refused .missingOperand ∧
      ∀ (j : Nat) (x : Char) (more : List Char), x ≠ ' ' → x ≠ '\t' → x ≠ ';' →
        assembleLine (mnemonic ++ gap k ++ text ++ gap j ++ x :: more) = .refused .extraOperand)
end

