-- ==== Sys2Proof/Laws/Arith.lean ====
section
/-! SUPPORT. What each arithmetic operation computes, as a number: the lemmas through which proofs
leave bit vectors for exact arithmetic (spec/00_scope.md section 5). -/

namespace Sys2Proof.Machine

theorem zext128_toNat (v : Word) : (zext128 v).toNat = v.toNat := by
  simp only [zext128, BitVec.toNat_setWidth]
  omega

theorem trunc64_toNat (v : Wide) : (trunc64 v).toNat = v.toNat % 2 ^ 64 := by
  simp only [trunc64, BitVec.toNat_setWidth]

/-- The product is exact: it always fits 128 bits. -/
theorem umul128_toNat (a b : Word) : (umul128 a b).toNat = a.toNat * b.toNat := by
  have h : a.toNat * b.toNat < 2 ^ 128 :=
    calc a.toNat * b.toNat < 2 ^ 64 * 2 ^ 64 := Nat.mul_lt_mul'' a.isLt b.isLt
      _ = 2 ^ 128 := by norm_num
  rw [umul128, BitVec.toNat_mul, zext128_toNat, zext128_toNat, Nat.mod_eq_of_lt h]

theorem shiftRight128_toNat (v : Wide) (k : ShiftAmount) :
    (shiftRight128 v k).toNat = v.toNat / 2 ^ k.toNat := by
  rw [shiftRight128, BitVec.toNat_ushiftRight, Nat.shiftRight_eq_div_pow]

theorem oneShiftLeft128_toNat (k : ShiftAmount) : (oneShiftLeft128 k).toNat = 2 ^ k.toNat := by
  have h : 2 ^ k.toNat < 2 ^ 128 := Nat.pow_lt_pow_right (by norm_num) k.isLt
  rw [oneShiftLeft128, BitVec.toNat_shiftLeft, Nat.shiftLeft_eq]
  simpa using Nat.mod_eq_of_lt h

theorem floorDiv128_toNat (a b : Wide) : (floorDiv128 a b).toNat = a.toNat / b.toNat :=
  BitVec.toNat_udiv

theorem msb_lt (v : Word) : msb v < 64 := by
  by_cases h : v.toNat = 0
  · simp [msb, h]
  · exact (Nat.log2_lt h).2 v.isLt

/-- The definition of `msb` as the index of the highest set bit: `2^msb(v) <= v < 2^(msb(v)+1)`. -/
theorem msb_bounds {v : Word} (h : v ≠ 0) :
    2 ^ msb v ≤ v.toNat ∧ v.toNat < 2 ^ (msb v + 1) := by
  have h0 : v.toNat ≠ 0 := fun e => h (by simpa using BitVec.eq_of_toNat_eq (y := 0) (by simpa using e))
  exact ⟨Nat.log2_self_le h0, Nat.lt_log2_self⟩

@[simp] theorem shiftOf_one : shiftOf 1 = 0 := rfl

theorem shiftOf_toNat {d : Word} (h : d ≠ 1) : (shiftOf d).toNat = 64 + msb (d - 1) := by
  have := msb_lt (d - 1)
  rw [shiftOf, if_neg h, BitVec.toNat_ofNat, Nat.mod_eq_of_lt (by omega)]

/-- The `DIV` result in any state: the product, shifted, and truncated to 64 bits. -/
theorem quotient_toNat (n : Word) (s : State) :
    (quotient n s).toNat = n.toNat * s.mult.toNat / 2 ^ s.shift.toNat % 2 ^ 64 := by
  rw [quotient, trunc64_toNat, shiftRight128_toNat, umul128_toNat]

/-- The `RED` result in any state, in 64-bit arithmetic. -/
theorem remainder_eq (n : Word) (s : State) : remainder n s = n - quotient n s * s.m := rfl

end Sys2Proof.Machine
end

