-- ==== Sys2Proof/Laws/Assembler.lean ====
section
/-! SUPPORT. What each part of the assembler does on text that is written as spec/30_encoding.md R42
says: letters of either case, the digits of a number, the words of a line, its comment. -/

namespace Sys2Proof.Machine

open Sys2Proof.Safety

/-! ### Letters -/

theorem toNat_toLower (c : Char) :
    c.toLower.toNat = if 65 ≤ c.toNat ∧ c.toNat ≤ 90 then c.toNat + 32 else c.toNat := by
  have hA : 'A'.val.toNat = 65 := rfl
  have hZ : 'Z'.val.toNat = 90 := rfl
  have hc : c.val.toNat = c.toNat := rfl
  unfold Char.toLower
  split <;> rename_i h <;>
    simp only [ge_iff_le, UInt32.le_iff_toNat_le, hA, hZ, hc] at h
  · rw [if_pos h, ← Char.toNat_val, UInt32.toNat_add, hc]
    show (c.toNat + 32) % 4294967296 = _
    omega
  · rw [if_neg h]

theorem toNat_toUpper (c : Char) :
    c.toUpper.toNat = if 97 ≤ c.toNat ∧ c.toNat ≤ 122 then c.toNat - 32 else c.toNat := by
  have ha : 'a'.val.toNat = 97 := rfl
  have hz : 'z'.val.toNat = 122 := rfl
  have hc : c.val.toNat = c.toNat := rfl
  unfold Char.toUpper
  split <;> rename_i h <;>
    simp only [UInt32.le_iff_toNat_le, ha, hz, hc] at h
  · rw [if_pos h, ← Char.toNat_val, UInt32.toNat_add, hc]
    show (c.toNat + 4294967264) % 4294967296 = _
    omega
  · rw [if_neg h]

/-- The model's capital is the letter's upper case. -/
theorem capital_eq_toUpper (c : Char) : capital c = c.toUpper := by
  apply Char.toNat_inj.mp
  rw [toNat_toUpper, capital]
  split
  · rename_i h
    rw [Char.toNat_ofNat, if_pos (by unfold Nat.isValidChar; omega)]
  · rfl

theorem map_capital (t : List Char) : t.map capital = t.map Char.toUpper :=
  List.map_congr_left fun c _ => capital_eq_toUpper c

/-! ### Digits -/

theorem toNat_digitChar {d : Nat} (hd : d < 16) :
    (Nat.digitChar d).toNat = if d < 10 then 48 + d else 87 + d := by
  interval_cases d <;> rfl

/-- A character is the digit `d` of a base: one of `0` to `9`, or a letter of either case. -/
def IsDigit (base : Nat) (c : Char) (d : Nat) : Prop :=
  d < base ∧ d < 16 ∧ c.toLower = Nat.digitChar d

theorem IsDigit.digitValue {base d : Nat} {c : Char} (h : IsDigit base c d) :
    digitValue c = some d := by
  have hn := congrArg Char.toNat h.2.2
  have hd := h.2.1
  rw [toNat_toLower, toNat_digitChar hd] at hn
  unfold Machine.digitValue
  simp only
  split_ifs at hn ⊢ <;> first | omega | (congr 1; omega)

theorem toNat_ne {c e : Char} (h : c.toNat ≠ e.toNat) : c ≠ e := fun hc => h (hc ▸ rfl)

/-- A digit is a figure or a letter, and so none of the characters with a part of their own. -/
theorem IsDigit.toNat_range {base d : Nat} {c : Char} (h : IsDigit base c d) :
    (48 ≤ c.toNat ∧ c.toNat ≤ 57) ∨ (65 ≤ c.toNat ∧ c.toNat ≤ 70) ∨
      (97 ≤ c.toNat ∧ c.toNat ≤ 102) := by
  have hn := congrArg Char.toNat h.2.2
  have hd := h.2.1
  rw [toNat_toLower, toNat_digitChar hd] at hn
  split_ifs at hn <;> omega

theorem IsDigit.ne_underscore {base d : Nat} {c : Char} (h : IsDigit base c d) : c ≠ '_' :=
  toNat_ne (by have := h.toNat_range; show c.toNat ≠ 95; omega)

/-- One digit is taken, whatever stood before it. -/
theorem digits_digit {base d : Nat} {c : Char} (h : IsDigit base c d) (acc : Nat) (b : Bool)
    (cs : List Char) : digits base acc b (c :: cs) = digits base (acc * base + d) true cs := by
  rw [digits, if_neg h.ne_underscore, h.digitValue]
  exact if_pos h.1

/-- Digits alone give their value. -/
theorem digits_run {base : Nat} {t : List Char} {ds : List Nat}
    (h : List.Forall₂ (IsDigit base) t ds) (acc : Nat) :
    digits base acc true t = some (ds.foldl (fun a d => a * base + d) acc) := by
  induction h generalizing acc with
  | nil => simp [digits]
  | cons hd _ ih => rw [digits_digit hd, ih]; rfl

/-- `_` between digits changes nothing. -/
theorem digits_intercalate {base : Nat} {groups : List (List Char)}
    (hne : ∀ g ∈ groups, g ≠ []) (hg : ∀ c ∈ groups.flatten, ∃ d, IsDigit base c d)
    (acc : Nat) :
    digits base acc false (List.intercalate ['_'] groups)
      = digits base acc false groups.flatten := by
  have run : ∀ (g : List Char), (∀ c ∈ g, ∃ d, IsDigit base c d) → ∀ (acc : Nat) (b : Bool),
      ∀ r r' : List Char, (∀ acc, digits base acc true r = digits base acc true r') →
      (g = [] → b = true) → digits base acc b (g ++ r) = digits base acc b (g ++ r') := by
    intro g
    induction g with
    | nil => intro _ acc b r r' h hb; rw [hb rfl]; exact h acc
    | cons c g ih =>
      intro hd acc b r r' h _
      obtain ⟨d, hc⟩ := hd c (List.mem_cons_self ..)
      rw [List.cons_append, List.cons_append, digits_digit hc, digits_digit hc]
      exact ih (fun x hx => hd x (List.mem_cons_of_mem _ hx)) _ _ r r' h fun _ => rfl
  induction groups generalizing acc with
  | nil => rfl
  | cons g gs ih =>
    have hgs := ih (fun x hx => hne x (List.mem_cons_of_mem _ hx))
      fun c hc => hg c (by simp only [List.flatten_cons, List.mem_append]; exact .inr hc)
    cases gs with
    | nil => rfl
    | cons g' gs' =>
      have e : List.intercalate ['_'] (g :: g' :: gs')
          = g ++ ('_' :: List.intercalate ['_'] (g' :: gs')) := rfl
      rw [e, List.flatten_cons]
      refine run g (fun c hc => hg c (by simp [hc])) acc false _ _ (fun acc => ?_)
        fun h => absurd h (hne g (List.mem_cons_self ..))
      have s : digits base acc true ('_' :: List.intercalate ['_'] (g' :: gs'))
          = digits base acc false (List.intercalate ['_'] (g' :: gs')) := by simp [digits]
      rw [s, hgs]
      obtain ⟨c, cs, hcs⟩ := List.exists_cons_of_ne_nil (hne g' (by simp))
      obtain ⟨d, hd⟩ := hg c (by simp [hcs])
      rw [List.flatten_cons, hcs, List.cons_append, digits_digit hd, digits_digit hd]

/-- The digits of a number, and that they have its value. -/
theorem toDigits_spec {base : Nat} (h1 : 1 < base) (h16 : base ≤ 16) (v : Nat) :
    ∃ ds : List Nat, Nat.toDigits base v = ds.map Nat.digitChar ∧ (∀ d ∈ ds, d < base) ∧
      ds ≠ [] ∧
      ∀ acc, ds.foldl (fun a d => a * base + d) acc = acc * base ^ ds.length + v := by
  induction v using Nat.strong_induction_on with
  | _ v ih =>
    rw [Nat.toDigits_eq_if h1]
    by_cases hv : v < base
    · exact ⟨[v], by simp [hv], by simp [hv], by simp, fun acc => by simp⟩
    · obtain ⟨ds, e, hd, -, hs⟩ := ih (v / base) (Nat.div_lt_self (by omega) h1)
      refine ⟨ds ++ [v % base], by simp [hv, e], ?_, by simp, fun acc => ?_⟩
      · simp only [List.mem_append, List.mem_singleton]
        rintro d (h | rfl)
        · exact hd d h
        · exact Nat.mod_lt _ (by omega)
      · rw [List.foldl_append, hs]
        simp only [List.foldl_cons, List.foldl_nil, List.length_append, List.length_singleton,
          pow_succ]
        have := Nat.div_add_mod v base
        nlinarith [this]

theorem isDigits_of_map {base : Nat} (h16 : base ≤ 16) :
    ∀ {t : List Char} {ds : List Nat}, t.map Char.toLower = ds.map Nat.digitChar →
      (∀ d ∈ ds, d < base) → List.Forall₂ (IsDigit base) t ds
  | [], [], _, _ => .nil
  | c :: _, d :: ds, h, hd => by
    rw [List.map_cons, List.map_cons, List.cons.injEq] at h
    have hb := hd d (List.mem_cons_self ..)
    exact .cons ⟨hb, by omega, h.1⟩
      (isDigits_of_map h16 h.2 fun x hx => hd x (List.mem_cons_of_mem _ hx))

/-- A spelling is figures, letters and `_` alone. -/
theorem mem_intercalate_underscore {groups : List (List Char)} {c : Char}
    (h : c ∈ List.intercalate ['_'] groups) : c = '_' ∨ c ∈ groups.flatten := by
  induction groups with
  | nil => exact absurd h List.not_mem_nil
  | cons g gs ih =>
    cases gs with
    | nil => exact .inr h
    | cons g' gs' =>
      have e : List.intercalate ['_'] (g :: g' :: gs')
          = g ++ ('_' :: List.intercalate ['_'] (g' :: gs')) := rfl
      rw [e, List.mem_append, List.mem_cons] at h
      rcases h with h | h | h
      · exact .inr (by simp [h])
      · exact .inl h
      · exact (ih h).imp_right fun h => by
          rw [List.flatten_cons]; exact List.mem_append_right _ h

/-- A number spelled in a base is read as that number, and its spelling starts with a digit and is
digits and `_` alone. -/
theorem digits_of_spelledIn {base v : Nat} (h1 : 1 < base) (h16 : base ≤ 16) {t : List Char}
    (h : SpelledIn base v t) :
    digits base 0 false t = some v ∧ (∃ c cs d, t = c :: cs ∧ IsDigit base c d) ∧
      ∀ c ∈ t, c = '_' ∨ ∃ d, IsDigit base c d := by
  obtain ⟨groups, hne, rfl, z, hz⟩ := h
  obtain ⟨ds, e, hd, hds, hs⟩ := toDigits_spec h1 h16 v
  have all : List.Forall₂ (IsDigit base) groups.flatten (List.replicate z 0 ++ ds) := by
    refine isDigits_of_map h16 ?_ fun d hx => ?_
    · rw [hz, e, List.map_append, List.map_replicate]; rfl
    · rcases List.mem_append.mp hx with hx | hx
      · rw [List.eq_of_mem_replicate hx]; omega
      · exact hd d hx
  have dig : ∀ c ∈ groups.flatten, ∃ d, IsDigit base c d := by
    intro c hc
    obtain ⟨k, hk, rfl⟩ := List.mem_iff_getElem.mp hc
    exact ⟨_, all.get hk (by rw [← all.length_eq]; exact hk)⟩
  have zeros : ∀ z acc, (List.replicate z 0).foldl (fun a d => a * base + d) acc
      = acc * base ^ z := by
    intro z
    induction z with
    | zero => simp
    | succ z ih => intro acc; rw [List.replicate_succ, List.foldl_cons, ih, pow_succ]; ring
  have start : ∃ c cs d, List.intercalate ['_'] groups = c :: cs ∧ IsDigit base c d := by
    cases groups with
    | nil => exact absurd (List.append_eq_nil_iff.mp (List.forall₂_nil_left_iff.mp all)).2 hds
    | cons g gs =>
      obtain ⟨c, cs, rfl⟩ := List.exists_cons_of_ne_nil (hne g (List.mem_cons_self ..))
      obtain ⟨d, hc⟩ := dig c (by simp)
      cases gs with
      | nil => exact ⟨c, _, d, rfl, hc⟩
      | cons g' gs' => exact ⟨c, _, d, rfl, hc⟩
  refine ⟨?_, start, fun c hc => (mem_intercalate_underscore hc).imp_right (dig c)⟩
  rw [digits_intercalate hne dig]
  have fold := digits_run all 0
  rw [List.foldl_append, zeros, hs, Nat.zero_mul, Nat.zero_mul, Nat.zero_add] at fold
  rw [← fold]
  generalize groups.flatten = t at all ⊢
  generalize hl : List.replicate z 0 ++ ds = l at all
  cases all with
  | nil => exact absurd (List.append_eq_nil_iff.mp hl).2 hds
  | cons hc _ => rw [digits_digit hc, digits_digit hc]

/-- A literal of R42 is read as the number it spells. -/
theorem literal_of_spells {v : Nat} {t : List Char} (h : SpellsLiteral v t) :
    literal t = some v := by
  rcases h with h | ⟨t, rfl, h⟩
  · obtain ⟨hv, ⟨c, cs, d, rfl, hc⟩, hall⟩ := digits_of_spelledIn (by omega) (by omega) h
    rw [← hv]
    unfold literal
    split
    · rename_i r hr
      exfalso
      rw [hr] at hall
      rcases hall 'x' (by simp) with hx | ⟨d, hd⟩
      · exact absurd hx (by decide)
      · have := hd.toNat_range
        revert this; decide
    · rfl
  · exact (digits_of_spelledIn (by omega) (by omega) h).1

/-- "A negative literal" is none (R42). -/
theorem literal_negative (t : List Char) : literal ('-' :: t) = none := by
  show digits 10 0 false ('-' :: t) = none
  rw [digits, if_neg (by decide)]
  rfl

/-- The digits of every number spell it, so that every number has a literal in each base. -/
theorem spelledIn_toDigits {base : Nat} (h1 : 1 < base) (h16 : base ≤ 16) (v : Nat) :
    SpelledIn base v (Nat.toDigits base v) := by
  obtain ⟨ds, e, hd, hne, -⟩ := toDigits_spec h1 h16 v
  refine ⟨[Nat.toDigits base v], ?_, by simp, 0, ?_⟩
  · simp only [List.mem_singleton, forall_eq, e]
    simpa using hne
  · rw [List.flatten_singleton, e, List.map_map, List.replicate_zero, List.nil_append]
    refine List.map_congr_left fun d hx => ?_
    have := hd d hx
    have h : ∀ d < 16, (Nat.digitChar d).toLower = Nat.digitChar d := by decide
    exact h d (by omega)

theorem spellsLiteral_decimal (v : Nat) : SpellsLiteral v (Nat.toDigits 10 v) :=
  .inl (spelledIn_toDigits (by omega) (by omega) v)

theorem spellsLiteral_hexadecimal (v : Nat) :
    SpellsLiteral v ('0' :: 'x' :: Nat.toDigits 16 v) :=
  .inr ⟨_, rfl, spelledIn_toDigits (by omega) (by omega) v⟩

/-! ### The words of a line -/

/-- A character that stands inside a word: no blank, and not the `;` of a comment. -/
def InWord (c : Char) : Prop := isBlank c = false ∧ c ≠ ';'

theorem withoutComment_append {w : List Char} (h : ∀ c ∈ w, c ≠ ';') (r : List Char) :
    withoutComment (w ++ r) = w ++ withoutComment r := by
  induction w with
  | nil => rfl
  | cons c w ih =>
    rw [List.cons_append, withoutComment, if_neg (h c (List.mem_cons_self ..)),
      ih fun x hx => h x (List.mem_cons_of_mem _ hx)]
    rfl

/-- Spaces and a comment leave spaces. -/
theorem withoutComment_endsLine {tail : List Char} (h : EndsLine tail) :
    ∃ k, withoutComment tail = List.replicate k ' ' := by
  obtain ⟨k, c, rfl | rfl⟩ := h
  · refine ⟨k, ?_⟩
    rw [← List.append_nil (List.replicate k ' '), withoutComment_append fun x hx => by
      rw [List.eq_of_mem_replicate hx]; decide]
    simp [withoutComment]
  · refine ⟨k, ?_⟩
    rw [withoutComment_append fun x hx => by rw [List.eq_of_mem_replicate hx]; decide]
    simp [withoutComment]

theorem wordsFrom_word {w : List Char} (h : ∀ c ∈ w, isBlank c = false) (cur r : List Char) :
    wordsFrom cur (w ++ r) = wordsFrom (w.reverse ++ cur) r := by
  induction w generalizing cur with
  | nil => rfl
  | cons c w ih =>
    rw [List.cons_append, wordsFrom, h c (List.mem_cons_self ..)]
    simp only [Bool.false_eq_true, if_false]
    rw [ih (fun x hx => h x (List.mem_cons_of_mem _ hx)), List.reverse_cons, List.append_assoc]
    rfl

theorem wordsFrom_spaces (k : Nat) (r : List Char) :
    wordsFrom [] (List.replicate k ' ' ++ r) = wordsFrom [] r := by
  induction k with
  | zero => rfl
  | succ k ih => rw [List.replicate_succ, List.cons_append, ← ih]; rfl

/-- A word and the space after it: the word is taken. -/
theorem wordsFrom_word_gap {w : List Char} (hne : w ≠ []) (h : ∀ c ∈ w, isBlank c = false)
    (k : Nat) (r : List Char) :
    wordsFrom [] (w ++ (gap k ++ r)) = w :: wordsFrom [] r := by
  have e : gap k ++ r = ' ' :: (List.replicate k ' ' ++ r) := rfl
  rw [wordsFrom_word h, e, wordsFrom, List.append_nil]
  simp [isBlank, hne, wordsFrom_spaces]

/-- The last word of a line and the spaces after it. -/
theorem wordsFrom_word_end {w : List Char} (hne : w ≠ []) (h : ∀ c ∈ w, isBlank c = false)
    (k : Nat) : wordsFrom [] (w ++ List.replicate k ' ') = [w] := by
  cases k with
  | zero =>
    rw [wordsFrom_word h]
    simp [wordsFrom, hne]
  | succ k =>
    have := wordsFrom_word_gap hne h k []
    rw [List.append_nil] at this
    exact this.trans (by simp [wordsFrom])

/-- A text that begins in a word has a first word. -/
theorem wordsFrom_ne_nil (c : Char) (cur r : List Char) : wordsFrom (c :: cur) r ≠ [] := by
  induction r generalizing c cur with
  | nil => simp [wordsFrom]
  | cons x r ih =>
    rw [wordsFrom]
    split
    · simp
    · exact ih _ _

/-- The characters of a literal stand inside a word. -/
theorem inWord_of_spells {v : Nat} {t : List Char} (h : SpellsLiteral v t) :
    t ≠ [] ∧ ∀ c ∈ t, InWord c := by
  have key : ∀ {base : Nat} {t : List Char}, 1 < base → base ≤ 16 → SpelledIn base v t →
      t ≠ [] ∧ ∀ c ∈ t, InWord c := by
    intro base t h1 h16 h
    obtain ⟨-, ⟨c, cs, d, rfl, -⟩, hall⟩ := digits_of_spelledIn h1 h16 h
    refine ⟨by simp, fun c hc => ?_⟩
    rcases hall c hc with rfl | ⟨d, hd⟩
    · exact ⟨rfl, by decide⟩
    · have hr := hd.toNat_range
      have h1 : c ≠ ' ' := toNat_ne (by show c.toNat ≠ 32; omega)
      have h2 : c ≠ '\t' := toNat_ne (by show c.toNat ≠ 9; omega)
      exact ⟨by simp [isBlank, h1, h2], toNat_ne (by show c.toNat ≠ 59; omega)⟩
  rcases h with h | ⟨t, rfl, h⟩
  · exact key (by omega) (by omega) h
  · refine ⟨by simp, fun c hc => ?_⟩
    rw [List.mem_cons, List.mem_cons] at hc
    rcases hc with rfl | rfl | hc
    · exact ⟨rfl, by decide⟩
    · exact ⟨rfl, by decide⟩
    · exact (key (by omega) (by omega) h).2 c hc

/-! ### A line -/

/-- A line is what follows from its words: the one lemma through which proofs leave its text. -/
theorem assembleLine_of_words {line : List Char} {mnemonic : List Char}
    {operands : List (List Char)}
    (h : wordsFrom [] (withoutComment line) = mnemonic :: operands)
    (hk : knownMnemonic (mnemonic.map Char.toUpper) = true) :
    (operands = [] → assembleLine line = .refused .missingOperand) ∧
    (∀ operand v, operands = [operand] → literal operand = some v →
      assembleLine line = assembleCommand (mnemonic.map Char.toUpper) v) ∧
    (∀ operand, operands = [operand] → literal operand = none →
      assembleLine line = .refused .badLiteral) ∧
    (∀ a b r, operands = a :: b :: r → assembleLine line = .refused .extraOperand) := by
  unfold assembleLine
  simp only [h, map_capital, hk, if_true]
  refine ⟨?_, ?_, ?_, ?_⟩
  · rintro rfl; rfl
  · rintro o v rfl hl; simp only [hl]
  · rintro o rfl hl; simp only [hl]
  · rintro a b r rfl; rfl

/-- The characters of a mnemonic stand inside a word. -/
theorem inWord_of_knownMnemonic {mnemonic : List Char}
    (hk : knownMnemonic (mnemonic.map Char.toUpper) = true) :
    mnemonic ≠ [] ∧ ∀ c ∈ mnemonic, InWord c := by
  have hk' := of_decide_eq_true hk
  have all : ∀ name ∈ [['B', 'U', 'I', 'L', 'D'], ['D', 'I', 'V'], ['R', 'E', 'D'],
      ['.', 'C', 'M', 'D']], name ≠ [] ∧ ∀ c ∈ name, c ≠ ' ' ∧ c ≠ '\t' ∧ c ≠ ';' := by simp
  obtain ⟨hne, hc⟩ := all _ hk'
  refine ⟨fun h => hne (by rw [h]; rfl), fun c hm => ?_⟩
  obtain ⟨h1, h2, h3⟩ := hc _ (List.mem_map_of_mem hm)
  have n1 : c ≠ ' ' := fun h => h1 (by rw [h]; rfl)
  have n2 : c ≠ '\t' := fun h => h2 (by rw [h]; rfl)
  exact ⟨by simp [isBlank, n1, n2], fun h => h3 (by rw [h]; rfl)⟩

/-- A line of one word. -/
theorem words_of_one {w tail : List Char} (hne : w ≠ []) (hw : ∀ c ∈ w, InWord c)
    (ht : EndsLine tail) : wordsFrom [] (withoutComment (w ++ tail)) = [w] := by
  obtain ⟨k, hk⟩ := withoutComment_endsLine ht
  rw [withoutComment_append fun c hc => (hw c hc).2, hk,
    wordsFrom_word_end hne fun c hc => (hw c hc).1]

/-- A line's first word is taken, and the rest read on. -/
theorem words_of_gap {w : List Char} (hne : w ≠ []) (hw : ∀ c ∈ w, InWord c) (k : Nat)
    (r : List Char) :
    wordsFrom [] (withoutComment (w ++ (gap k ++ r))) = w :: wordsFrom [] (withoutComment r) := by
  rw [withoutComment_append fun c hc => (hw c hc).2,
    withoutComment_append fun c hc => by rw [List.eq_of_mem_replicate hc]; decide,
    wordsFrom_word_gap hne fun c hc => (hw c hc).1]

/-- A text that begins with a character of a word has a word. -/
theorem words_ne_nil {x : Char} (hx : InWord x) (more : List Char) :
    wordsFrom [] (withoutComment (x :: more)) ≠ [] := by
  rw [withoutComment, if_neg hx.2, wordsFrom, hx.1]
  simpa using wordsFrom_ne_nil x [] _

end Sys2Proof.Machine
end

