-- ==== Sys2Proof/Laws/Decode.lean ====
section
/-! SUPPORT. The fields of command and response words as numbers, and what a response word says. -/

namespace Sys2Proof

theorem opField_toNat (w : CMD66) : (opField w).toNat = w.toNat / 2 ^ 64 := by
  have := w.isLt
  rw [opField, BitVec.extractLsb'_toNat, Nat.shiftRight_eq_div_pow]
  omega

theorem immField_toNat (w : CMD66) : (immField w).toNat = w.toNat % 2 ^ 64 := by
  rw [immField, BitVec.extractLsb'_toNat, Nat.shiftRight_zero]

theorem responseWord_toNat (st : Status) (data : Word) :
    (responseWord st data).toNat = st.code.toNat * 2 ^ 64 + data.toNat := by
  rw [responseWord, BitVec.toNat_append, Nat.shiftLeft_eq, Nat.mul_comm,
    ← Nat.two_pow_add_eq_or_of_lt data.isLt]

@[simp] theorem responseStatus_responseWord (st : Status) (data : Word) :
    responseStatus (responseWord st data) = st := by
  have h : (responseWord st data).extractLsb' 64 2 = st.code := by
    apply BitVec.eq_of_toNat_eq
    have := data.isLt
    have := st.code.isLt
    rw [BitVec.extractLsb'_toNat, Nat.shiftRight_eq_div_pow, responseWord_toNat]
    omega
  rw [responseStatus, h]
  cases st <;> rfl

@[simp] theorem responseData_responseWord (st : Status) (data : Word) :
    responseData (responseWord st data) = data := by
  apply BitVec.eq_of_toNat_eq
  have := data.isLt
  rw [responseData, BitVec.extractLsb'_toNat, Nat.shiftRight_zero, responseWord_toNat]
  omega

/-- No two rows of the opcode map share a word: they agree on no match. -/
theorem opcodeTable_rows_disjoint :
    opcodeTable.Pairwise fun a b => a.maskBits = b.maskBits ∧ a.matchBits ≠ b.matchBits := by
  decide

/-- A number is refused exactly when it is no 66-bit word, and then by name. -/
theorem decodeNumber_refused_iff (v : Nat) :
    decodeNumber v = .error (.notACommandWord v) ↔ 2 ^ 66 ≤ v := by
  unfold decodeNumber commandWord commandWordInRange
  by_cases h : v < 2 ^ 66
  · rw [decide_eq_true h, if_pos rfl]
    exact ⟨fun e => (nomatch e), fun e => absurd h (Nat.not_lt.2 e)⟩
  · rw [decide_eq_false h, if_neg Bool.false_ne_true]
    exact ⟨fun _ => Nat.le_of_not_lt h, fun _ => rfl⟩

end Sys2Proof
end

