-- ==== Sys2Proof/Laws/State.lean ====
section
/-! SUPPORT. One lemma per field per update of the state, so that no later proof unfolds a record
update. -/

namespace Sys2Proof.Machine

variable (s : State) (st : Status) (e : BlockError) (d data : Word) (w : CMD66) (ws : List CMD66)

/-! ### `VALID` -/

@[simp] theorem setValid_valid : (setValid s).valid = true := rfl
@[simp] theorem setValid_m : (setValid s).m = s.m := rfl
@[simp] theorem setValid_shift : (setValid s).shift = s.shift := rfl
@[simp] theorem setValid_mult : (setValid s).mult = s.mult := rfl
@[simp] theorem setValid_pending : (setValid s).pending = s.pending := rfl
@[simp] theorem setValid_responses : (setValid s).responses = s.responses := rfl
@[simp] theorem setValid_draws : (setValid s).draws = s.draws := rfl

@[simp] theorem clearValid_valid : (clearValid s).valid = false := rfl
@[simp] theorem clearValid_m : (clearValid s).m = s.m := rfl
@[simp] theorem clearValid_shift : (clearValid s).shift = s.shift := rfl
@[simp] theorem clearValid_mult : (clearValid s).mult = s.mult := rfl
@[simp] theorem clearValid_pending : (clearValid s).pending = s.pending := rfl
@[simp] theorem clearValid_responses : (clearValid s).responses = s.responses := rfl
@[simp] theorem clearValid_draws : (clearValid s).draws = s.draws := rfl

/-! ### Responses and errors -/

@[simp] theorem respond_valid : (respond st data s).valid = s.valid := rfl
@[simp] theorem respond_m : (respond st data s).m = s.m := rfl
@[simp] theorem respond_shift : (respond st data s).shift = s.shift := rfl
@[simp] theorem respond_mult : (respond st data s).mult = s.mult := rfl
@[simp] theorem respond_pending : (respond st data s).pending = s.pending := rfl
@[simp] theorem respond_responses :
    (respond st data s).responses = s.responses ++ [responseWord st data] := rfl
@[simp] theorem respond_draws : (respond st data s).draws = s.draws := rfl

@[simp] theorem raise_valid : (raise e s).valid = s.valid := rfl
@[simp] theorem raise_m : (raise e s).m = s.m := rfl
@[simp] theorem raise_shift : (raise e s).shift = s.shift := rfl
@[simp] theorem raise_mult : (raise e s).mult = s.mult := rfl
@[simp] theorem raise_pending : (raise e s).pending = s.pending := rfl
@[simp] theorem raise_responses :
    (raise e s).responses = s.responses ++ [responseWord e.status 0] := rfl
@[simp] theorem raise_draws : (raise e s).draws = s.draws := rfl

/-! ### The instance -/

@[simp] theorem constructInstance_valid : (constructInstance d s).valid = true := rfl
@[simp] theorem constructInstance_m : (constructInstance d s).m = d := rfl
@[simp] theorem constructInstance_shift : (constructInstance d s).shift = shiftOf d := rfl
@[simp] theorem constructInstance_mult : (constructInstance d s).mult = multOf d := rfl
@[simp] theorem constructInstance_pending : (constructInstance d s).pending = s.pending := rfl
@[simp] theorem constructInstance_responses :
    (constructInstance d s).responses = s.responses := rfl
@[simp] theorem constructInstance_draws : (constructInstance d s).draws = s.draws := rfl

@[simp] theorem dropInstance_valid : (dropInstance s).valid = false := rfl
@[simp] theorem dropInstance_pending : (dropInstance s).pending = s.pending := rfl
@[simp] theorem dropInstance_responses : (dropInstance s).responses = s.responses := rfl
@[simp] theorem dropInstance_draws : (dropInstance s).draws = s.draws + 1 := rfl

@[simp] theorem applyReset_valid : (applyReset s).valid = false := rfl
@[simp] theorem applyReset_pending : (applyReset s).pending = s.pending := rfl
@[simp] theorem applyReset_responses : (applyReset s).responses = s.responses := rfl
@[simp] theorem applyReset_draws : (applyReset s).draws = s.draws + 1 := rfl

/-! ### The host -/

@[simp] theorem presentNext_valid : (presentNext w s).valid = s.valid := rfl
@[simp] theorem presentNext_m : (presentNext w s).m = s.m := rfl
@[simp] theorem presentNext_shift : (presentNext w s).shift = s.shift := rfl
@[simp] theorem presentNext_mult : (presentNext w s).mult = s.mult := rfl
@[simp] theorem presentNext_pending :
    (presentNext w s).pending = .command w :: s.pending := rfl
@[simp] theorem presentNext_responses : (presentNext w s).responses = s.responses := rfl
@[simp] theorem presentNext_draws : (presentNext w s).draws = s.draws := rfl

@[simp] theorem presentProgram_valid : (presentProgram ws s).valid = s.valid := rfl
@[simp] theorem presentProgram_m : (presentProgram ws s).m = s.m := rfl
@[simp] theorem presentProgram_shift : (presentProgram ws s).shift = s.shift := rfl
@[simp] theorem presentProgram_mult : (presentProgram ws s).mult = s.mult := rfl
@[simp] theorem presentProgram_pending :
    (presentProgram ws s).pending = s.pending ++ ws.map .command := rfl
@[simp] theorem presentProgram_responses :
    (presentProgram ws s).responses = s.responses := rfl
@[simp] theorem presentProgram_draws : (presentProgram ws s).draws = s.draws := rfl

end Sys2Proof.Machine
end

