-- ==== Sys2Proof/Laws/Ops.lean ====
section
/-! SUPPORT. For each shared operation, one lemma that says what it can do. -/

namespace Sys2Proof.Machine

/-- Everything `dropInstance` does but for the free values: `VALID` is cleared, one draw is counted,
and the host's side is as before. -/
theorem dropInstance_spec (s : State) :
    (dropInstance s).valid = false ∧ (dropInstance s).draws = s.draws + 1 ∧
      (dropInstance s).pending = s.pending ∧ (dropInstance s).responses = s.responses :=
  ⟨rfl, rfl, rfl, rfl⟩

/-- Everything `constructInstance` does. -/
theorem constructInstance_eq (d : Word) (s : State) :
    constructInstance d s =
      { s with valid := true, m := d, shift := shiftOf d, mult := multOf d } := rfl

/-- `raise` is a response with the error's status and data 0. -/
theorem raise_eq_respond (e : BlockError) (s : State) : raise e s = respond e.status 0 s := rfl

theorem answerIfBuilt_of_valid {s : State} (h : s.valid = true) (result : State → Word) :
    answerIfBuilt result s = respond .ok (result s) s := by
  simp [answerIfBuilt, holdsNoInstance, h]

theorem answerIfBuilt_of_not_valid {s : State} (h : s.valid = false) (result : State → Word) :
    answerIfBuilt result s = raise .noDivisor s := by
  simp [answerIfBuilt, holdsNoInstance, h]

theorem takeEvent_of_nil {s : State} (h : s.pending = []) : takeEvent s = none := by
  simp [takeEvent, h]

theorem takeEvent_of_cons {s : State} {e : HostEvent} {rest : List HostEvent}
    (h : s.pending = e :: rest) : takeEvent s = some (e, { s with pending := rest }) := by
  simp [takeEvent, h]

/-- The host's use of a response that was just given. -/
theorem okData_respond (st : Status) (data : Word) (s : State) :
    okData (respond st data s) = if st = .ok then some data else none := by
  simp [okData, List.getLast?_append]

end Sys2Proof.Machine
end

