-- ==== Sys2Proof/Laws/Exec.lean ====
section
/-! SUPPORT. What each meaning is in each of its cases, what a step is for each kind of event, and how
a run unrolls: the equations later proofs cite instead of unfolding. -/

namespace Sys2Proof.Machine

theorem exec_reserved (imm : Word) (s : State) :
    exec (.reserved imm) s = .next (raise .illegalOp s) := rfl

theorem exec_build_zero (s : State) :
    exec (.build 0) s = .next (raise .zeroDivisor (dropInstance s)) := rfl

theorem exec_build_of_ne {d : Word} (h : d ≠ 0) (s : State) :
    exec (.build d) s = .next (respond .ok 0 (constructInstance d s)) := by
  rw [exec, execBuild, if_neg h]

theorem exec_div_of_valid (n : Word) {s : State} (h : s.valid = true) :
    exec (.div n) s = .next (respond .ok (quotient n s) s) := by
  rw [exec, execDiv, answerIfBuilt_of_valid h]

theorem exec_div_of_not_valid (n : Word) {s : State} (h : s.valid = false) :
    exec (.div n) s = .next (raise .noDivisor s) := by
  rw [exec, execDiv, answerIfBuilt_of_not_valid h]

theorem exec_red_of_valid (n : Word) {s : State} (h : s.valid = true) :
    exec (.red n) s = .next (respond .ok (remainder n s) s) := by
  rw [exec, execRed, answerIfBuilt_of_valid h]

theorem exec_red_of_not_valid (n : Word) {s : State} (h : s.valid = false) :
    exec (.red n) s = .next (raise .noDivisor s) := by
  rw [exec, execRed, answerIfBuilt_of_not_valid h]

theorem step_of_nil {s : State} (h : s.pending = []) : step s = .next s := by
  rw [step, takeEvent_of_nil h, idle]

theorem step_of_command {s : State} {w : CMD66} {rest : List HostEvent}
    (h : s.pending = .command w :: rest) :
    step s = exec (decode w) { s with pending := rest } := by
  rw [step, takeEvent_of_cons h]

theorem step_of_reset {s : State} {rest : List HostEvent} (h : s.pending = .reset :: rest) :
    step s = .next (applyReset { s with pending := rest }) := by
  rw [step, takeEvent_of_cons h]

/-- A run of one more step of any machine, where the first step is known. -/
theorem core_run_succ (M : Host.Core) {s t : M.State} (h : M.step s = .next t) (k : Nat) :
    M.run (k + 1) s = M.run k t := by
  simp only [Host.Core.run, h]

/-- A run of one more step of this machine, where the first step is known. -/
theorem run_succ_of_step {s t : State} (h : step s = .next t) (k : Nat) :
    Host.Core.run core (k + 1) s = Host.Core.run core k t :=
  core_run_succ core h k

end Sys2Proof.Machine
end

