-- ==== Sys2Proof/Laws/PerInstr.lean ====
section
/-! SUPPORT. Statements made of every command as syntax, one lemma per constructor. -/

/-- The word an encoder gives a command is a word of the command's own row of the opcode map
(spec/30_encoding.md R37). -/
def Sys2Proof.Laws.EncodesToItsRow.Statement (i : Sys2Proof.Instr) : Prop :=
  (Sys2Proof.rowOf i).matchesWord (Sys2Proof.encode i) = true

namespace Sys2Proof.Laws.EncodesToItsRow

/-- Under a mask of the two opcode bits, a word is its opcode alone. -/
theorem mask_append (op : OpField) (imm : Word) :
    (op ++ imm) &&& 0x30000000000000000#66 = op ++ 0#64 := by
  apply BitVec.eq_of_getLsbD_eq
  intro k hk
  have h : (0x30000000000000000#66) = (0b11#2 ++ 0#64 : BitVec 66) := by decide
  rw [h]
  simp only [BitVec.getLsbD_and, BitVec.getLsbD_append]
  by_cases hk' : k < 64
  · simp [hk']
  · have : k = 64 ∨ k = 65 := by omega
    rcases this with rfl | rfl <;> simp

theorem reserved (imm : Word) : Statement (.reserved imm) := by
  simp only [Statement, OpRow.matchesWord, rowOf, encode, mask_append, opcodeOf, decide_eq_true_eq]
  rfl

theorem build (d : Word) : Statement (.build d) := by
  simp only [Statement, OpRow.matchesWord, rowOf, encode, mask_append, opcodeOf, decide_eq_true_eq]
  rfl

theorem div (n : Word) : Statement (.div n) := by
  simp only [Statement, OpRow.matchesWord, rowOf, encode, mask_append, opcodeOf, decide_eq_true_eq]
  rfl

theorem red (n : Word) : Statement (.red n) := by
  simp only [Statement, OpRow.matchesWord, rowOf, encode, mask_append, opcodeOf, decide_eq_true_eq]
  rfl

end Sys2Proof.Laws.EncodesToItsRow
end

