-- ==== Sys2Proof/Tests/Slice0.lean ====
section
/-! SUPPORT. The model's own tests. The expected values are those of spec/95_test_vectors.md,
spec/40_fast_divisor_circuit.md section 5 and spec/30_encoding.md R37, R42; the second part shows, for
each statement with hypotheses, states and operands that meet them. -/

namespace Sys2Proof.Tests

open Sys2Proof.Machine Sys2Proof.Safety

/-- The state a `BUILD d` leaves when it is the first command after reset, its response apart. -/
def built (d : Word) : State := constructInstance d State.reset

/-- `s` with these words presented. -/
def presenting (ws : List CMD66) (s : State) : State := presentProgram ws s

/-- The last response after a step that went on. -/
def answer : Host.Outcome State Fault Refusal → Option RSP66
  | .next t => t.responses.getLast?
  | _ => none

/-- `VALID` after a step that went on. -/
def validAfter : Host.Outcome State Fault Refusal → Option Bool
  | .next t => some t.valid
  | _ => none

/-! ### Well-formedness: each check refuses an ill-formed value -/

theorem test_command_word_of_67_bits_refused :
    commandWordInRange (2 ^ 66) = false ∧ commandWordInRange (2 ^ 66 - 1) = true := by decide
theorem test_literal_of_65_bits_refused :
    literalInRange (2 ^ 64) = false ∧ literalInRange (2 ^ 64 - 1) = true := by decide
theorem test_every_command_well_formed (i : Instr) : i.wf = true :=
  decide_eq_true i.operand.isLt
theorem test_decodeNumber_refuses_by_name :
    decodeNumber (2 ^ 66) = .error (.notACommandWord (2 ^ 66)) :=
  (decodeNumber_refused_iff _).2 (Nat.le_refl _)

/-! ### Decoding and encoding: words written out from R37 and the programs P1, P2, P4 -/

theorem test_decode_reserved : decode 0x00000000000000005#66 = .reserved 5 := by decide
theorem test_decode_all_zero : decode 0x00000000000000000#66 = .reserved 0 := by decide
theorem test_decode_build : decode 0x100000000000003E8#66 = .build 1000 := by decide
theorem test_decode_div : decode 0x20000000000375F00#66 = .div 3628800 := by decide
theorem test_decode_red : decode 0x3AAAAAAAAAAAAAAAD#66 = .red 0xAAAAAAAAAAAAAAAD := by decide
theorem test_encode_div : encode (.div 0xFFFFFFFFFFFFFFFF) = 0x2FFFFFFFFFFFFFFFF#66 := by decide
theorem test_encode_red : encode (.red 48) = 0x30000000000000030#66 := by decide
theorem test_decodeTableWord :
    decodeTableWord 72 0x10000000000000007 = some (.build 7) ∧
      decodeTableWord 72 0x40000000000000000 = none := by decide
theorem test_response_word : responseWord .ok 800 = 0x00000000000000320#66 := by decide

/-! ### Construction: rows of spec/40_fast_divisor_circuit.md section 5 -/

theorem test_construct_1000 :
    (built 1000).shift.toNat = 73 ∧ (built 1000).mult = 0x83126E978D4FDF3C := by decide
theorem test_construct_7 :
    (built 7).shift.toNat = 66 ∧ (built 7).mult = 0x924924924924924A := by decide
theorem test_construct_257 :
    (built 257).shift.toNat = 72 ∧ (built 257).mult = 0xFF00FF00FF00FF01 := by decide
theorem test_construct_256 :
    (built 256).shift.toNat = 71 ∧ (built 256).mult = 0x8000000000000000 := by decide
theorem test_construct_largest_multiplier :
    (built 0x8000000000000001).shift.toNat = 127 ∧
      (built 0x8000000000000001).mult = 0xFFFFFFFFFFFFFFFF := by decide
theorem test_construct_one : (built 1).shift.toNat = 0 ∧ (built 1).mult = 1 := by decide

/-! ### One step each -/

/-- P2 row 5. -/
theorem test_build_7 :
    answer (step (presenting [0x10000000000000007#66] State.reset))
      = some 0x00000000000000000#66 := by decide
/-- P2 row 10. -/
theorem test_build_0_clears_valid :
    answer (exec (.build 0) (built 7)) = some 0x10000000000000000#66 ∧
      validAfter (exec (.build 0) (built 7)) = some false := ⟨rfl, rfl⟩
/-- P4 row 4: inexact, quotient one too large. -/
theorem test_div_inexact :
    answer (step (presenting [0x2AAAAAAAAAAAAAAAD#66] (built 7)))
      = some 0x01861861861861862#66 := by decide
/-- Section 2.2: divisor 10. -/
theorem test_div_by_10 :
    answer (exec (.div 12345678901234567890) (built 10))
      = some (responseWord .ok 1234567890123456789) := by decide
/-- E4. -/
theorem test_red_scenario_1 :
    answer (step (presenting [0x30000000000375F00#66] (built 1000)))
      = some 0x00000000000000320#66 := by decide
/-- P4 row 5: inexact, all ones. -/
theorem test_red_inexact :
    answer (step (presenting [0x3AAAAAAAAAAAAAAAD#66] (built 7)))
      = some 0x0FFFFFFFFFFFFFFFF#66 := by decide
/-- P2 rows 1 and 2. -/
theorem test_no_divisor :
    answer (step (presenting [0x30000000000000005#66] State.reset)) = some 0x20000000000000000#66 ∧
      answer (step (presenting [0x20000000000000005#66] State.reset))
        = some 0x20000000000000000#66 := by decide
/-- P2 row 8: the all-zero word is illegal and leaves the instance. -/
theorem test_reserved_keeps_instance :
    answer (step (presenting [0x00000000000000000#66] (built 7))) = some 0x30000000000000000#66 ∧
      validAfter (step (presenting [0x00000000000000000#66] (built 7))) = some true := by decide
/-- P2 row 16. -/
theorem test_reset_event :
    validAfter (step { built 7 with pending := [.reset] }) = some false ∧
      answer (step { built 7 with pending := [.reset] }) = none := ⟨rfl, rfl⟩
/-- The interface's word is the next one run. -/
theorem test_withFetchWord :
    answer (step (State.reset.withFetchWord 72 0x00000000000000005))
      = some 0x30000000000000000#66 := by decide

/-! ### The host's routines and the assembler -/

/-- P5 row 4: the product of two residues. -/
theorem test_mulred :
    answer (mulred 1000000006 1000000006 (built 1000000007)) = some (responseWord .ok 1) := by decide
/-- A product of `2^64` is refused. -/
theorem test_mulred_too_wide :
    mulred 0x100000000 0x100000000 (built 7) = .refused .productTooWide := rfl
/-- The oracle of scenario 1. -/
theorem test_generic_factmod : genericFactmod 10 1000 = 800 := by decide
theorem test_assemble_build :
    assembleLine ['b', 'u', 'i', 'l', 'd', ' ', '0', 'x', '3', 'E', '8', ' ', ';', '!']
      = .word 0x100000000000003E8#66 := by decide
theorem test_assemble_cmd :
    assembleLine ['.', 'c', 'm', 'd', ' ', '0', 'x', '0', '_', '0', '5']
      = .word 0x00000000000000005#66 := by decide
theorem test_assemble_refusals :
    assembleLine ['D', 'I', 'V'] = .refused .missingOperand ∧
      assembleLine ['D', 'I', 'V', ' ', '1', ' ', '2'] = .refused .extraOperand ∧
      assembleLine ['R', 'E', 'D', ' ', '-', '1'] = .refused .badLiteral ∧
      assembleLine ['N', 'O', 'P'] = .refused .unknownMnemonic ∧
      assembleLine [' ', ';', 'x'] = .noCommand := by decide

/-! ### Witnesses: states and operands that meet the hypotheses of each statement -/

/-- The state that holds the instance of 7, with nothing presented: `(1, 7, 66, 0x924924924924924A)`. -/
theorem holds_built_7 : (built 7).valid = true ∧ HoldsInstance (built 7) := by
  unfold HoldsInstance; decide
theorem holds_built_1 : (built 1).valid = true ∧ HoldsInstance (built 1) := by
  unfold HoldsInstance; decide
theorem holds_built_2 : (built 2).valid = true ∧ HoldsInstance (built 2) := by
  unfold HoldsInstance; decide
theorem holds_built_two_pow_63 :
    (built 0x8000000000000000).valid = true ∧ HoldsInstance (built 0x8000000000000000) := by
  unfold HoldsInstance; decide
theorem holds_built_max :
    (built 0xFFFFFFFFFFFFFFFF).valid = true ∧ HoldsInstance (built 0xFFFFFFFFFFFFFFFF) := by
  unfold HoldsInstance; decide

/-- The first inexact dividend of 7 and the one before it (spec/95_test_vectors.md section 2.3). -/
theorem exactness_boundary_of_7 :
    InExactnessDomain 0xAAAAAAAAAAAAAAAC (built 7) ∧
      ¬ InExactnessDomain 0xAAAAAAAAAAAAAAAD (built 7) := by
  unfold InExactnessDomain errorTerm; decide

theorem witness_StepKeepsStateInvariant :
    ∃ t, Inv (presenting [0x20000000000000030#66] (built 7)) ∧
      step (presenting [0x20000000000000030#66] (built 7)) = .next t :=
  ⟨_, fun _ => holds_built_7.2, rfl⟩

theorem witness_StepRunsTheDecodedCommand :
    (presenting [0x20000000000000030#66] (built 7)).pending = [.command 0x20000000000000030#66] ∧
      (built 7).pending = [] := ⟨rfl, rfl⟩

theorem witness_StepGivesOneResponsePerCommand :
    (presenting [0x20000000000000030#66] (built 7)).pending = [.command 0x20000000000000030#66] ∧
      ({ built 7 with pending := [.reset] } : State).pending = [.reset] ∧
      (built 7).pending = [] := ⟨rfl, rfl, rfl⟩

theorem witness_ResponsesFollowCommandOrder :
    (built 7).pending = [] ∧ 0 < [0x20000000000000030#66, 0x30000000000000030#66].length ∧
      1 < [0x20000000000000030#66, 0x30000000000000030#66].length := ⟨rfl, by decide, by decide⟩

theorem witness_ResetEventDropsTheInstance :
    ({ built 7 with pending := [.reset] } : State).pending = [.reset] := rfl

theorem witness_OpcodeMapSelectsByMask :
    (0x0FFFFFFFFFFFFFFFF#66 &&& 0x30000000000000000#66 = 0x00000000000000000#66) ∧
      (0x10000000000000000#66 &&& 0x30000000000000000#66 = 0x10000000000000000#66) ∧
      (0x2FFFFFFFFFFFFFFFF#66 &&& 0x30000000000000000#66 = 0x20000000000000000#66) ∧
      (0x3FFFFFFFFFFFFFFFF#66 &&& 0x30000000000000000#66 = 0x30000000000000000#66) ∧
      (0x20000000000000000#66).toNat / 2 ^ 64 = (0x2FFFFFFFFFFFFFFFF#66).toNat / 2 ^ 64 := by decide

theorem witness_ExactlyTheSixtySixBitNumbersDecode : 2 ^ 66 ≤ 2 ^ 66 := Nat.le_refl _

theorem witness_ResponseWordCarriesStatusAndData :
    OnlyAnswers (.div 48) (built 7) .ok 6 ∧ OnlyAnswers (.red 48) (built 7) .ok 6 ∧
      OnlyAnswers (.red 48) State.reset .noDivisor 0 := by
  have hq : quotient 48 (built 7) = 6 := by decide
  have hr : remainder 48 (built 7) = 6 := by decide
  refine ⟨?_, ?_, exec_red_of_not_valid 48 rfl⟩
  · have h := exec_div_of_valid 48 holds_built_7.1
    rwa [hq] at h
  · have h := exec_red_of_valid 48 holds_built_7.1
    rwa [hr] at h

theorem witness_BuildWritesTheInstance : (1 : Word) ≠ 0 ∧ (0xFFFFFFFFFFFFFFFF : Word) ≠ 0 := by decide

theorem witness_BuildZeroDropsTheInstance :
    ∃ t, exec (.build 0) (built 7) = .next t ∧
      t.responses = (built 7).responses ++ [0x10000000000000000#66] := ⟨_, rfl, rfl⟩

theorem witness_ShiftIsSixtyFourPlusLogOfDivisor :
    2 ≤ (2 : Word).toNat ∧
      (2 ^ 0 + 1 ≤ (2 : Word).toNat ∧ (2 : Word).toNat ≤ 2 ^ (0 + 1)) ∧
      (2 ^ 1 + 1 ≤ (3 : Word).toNat ∧ (3 : Word).toNat ≤ 2 ^ (1 + 1)) ∧
      (2 ^ 63 + 1 ≤ (0x8000000000000001 : Word).toNat ∧
        (0xFFFFFFFFFFFFFFFF : Word).toNat ≤ 2 ^ (63 + 1)) := by decide

theorem witness_MultiplierIsTheReciprocalRoundedUp :
    (7 : Word) ≠ 0 ∧ (multOf 7).toNat ≤ 0x924924924924924A ∧
      ¬ (multOf 7).toNat ≤ 0x9249249249249249 := by decide

theorem witness_ConstructionResultsFitTheirRegisters :
    2 ≤ (2 : Word).toNat ∧ 2 ≤ (0xFFFFFFFFFFFFFFFF : Word).toNat ∧
      (multOf 4).toNat = 2 ^ 63 ∧ (multOf 3).toNat ≠ 2 ^ 63 := by decide

theorem witness_NumeratorFitsInOneHundredTwentyEightBits :
    (1 : Word) ≠ 0 ∧ 2 ≤ (2 : Word).toNat := by decide

theorem witness_DivisorOneHasUnitReciprocal :
    (built 1).valid = true ∧ (built 1).m = 1 ∧ (built 1).shift = 0 ∧ (built 1).mult = 1 ∧
      (2 : Word) ≠ 0 ∧ (multOf 2).getLsbD 63 = true := by decide

theorem witness_ErrorTermOfTheReciprocal :
    HoldsInstance (built 7) ∧ errorTerm (built 7) = 6 ∧
      HoldsInstance (built 2) ∧ errorTerm (built 2) = 0 :=
  ⟨holds_built_7.2, by unfold errorTerm; decide, holds_built_2.2, by unfold errorTerm; decide⟩

theorem witness_BuildForgetsTheOldInstance : (7 : Word) ≠ 0 ∧ (0 : Word) = 0 := by decide

theorem witness_DivAnswersTheShiftedProduct : (built 7).valid = true := rfl

theorem witness_DivLosesNoBit :
    HoldsInstance (built 1) ∧ HoldsInstance (built 2) ∧ 64 ≤ (built 2).shift.toNat ∧
      64 ≤ (built 0xFFFFFFFFFFFFFFFF).shift.toNat :=
  ⟨holds_built_1.2, holds_built_2.2, by decide, by decide⟩

theorem witness_DivIsTheTrueQuotientOrOneMore :
    (built 7).valid = true ∧ HoldsInstance (built 7) ∧
      (0xFFFFFFFFFFFFFFFD : Word).toNat % (built 7).m.toNat = (built 7).m.toNat - 1 ∧
      ∀ n : Word, n.toNat % (built 7).m.toNat = (built 7).m.toNat - 1 →
        n.toNat ≤ (0xFFFFFFFFFFFFFFFD : Word).toNat := by
  refine ⟨rfl, holds_built_7.2, by decide, fun n h => ?_⟩
  have h7 : (built 7).m.toNat = 7 := rfl
  have hmax : (0xFFFFFFFFFFFFFFFD : Word).toNat = 2 ^ 64 - 3 := rfl
  rw [h7] at h
  have := n.isLt
  omega

theorem witness_DivIsExactUnderTheSufficientConditions :
    HoldsInstance (built 7) ∧
      ((0xAAAAAAAAAAAAAAAA : Word).toNat * errorTerm (built 7) < 2 ^ (built 7).shift.toNat) ∧
      (0x7FFFFFFFFFFFFFFF : Word).toNat < 2 ^ 63 ∧
      (HoldsInstance (built 0xFFFFFFFFFFFFFFFF) ∧
        errorTerm (built 0xFFFFFFFFFFFFFFFF) * 2 ^ 64
          ≤ 2 ^ (built 0xFFFFFFFFFFFFFFFF).shift.toNat) ∧
      (HoldsInstance (built 2) ∧ (built 2).m.toNat = 2 ^ 1) ∧
      ¬ InExactnessDomain 0xAAAAAAAAAAAAAAAD (built 7) := by
  refine ⟨holds_built_7.2, ?_, by decide, ⟨holds_built_max.2, ?_⟩, ⟨holds_built_2.2, by decide⟩,
    exactness_boundary_of_7.2⟩ <;> unfold errorTerm <;> decide

theorem witness_DivisorsWithAnInexactDividend :
    (1 ≤ (1 : Word).toNat ∧ (1 : Word).toNat ≤ 64) ∧
      (1 ≤ (64 : Word).toNat ∧ (64 : Word).toNat ≤ 64) ∧
      (0xAAAAAAAAAAAAAAAC : Word).toNat < 0xAAAAAAAAAAAAAAAD := by decide

theorem witness_DivBySpecialDivisors :
    (HoldsInstance (built 1) ∧ (built 1).m = 1) ∧
      (HoldsInstance (built 2) ∧ (built 2).m.toNat = 2 ^ 1) ∧
      (HoldsInstance (built 0x8000000000000000) ∧
        (built 0x8000000000000000).m.toNat = 2 ^ 63) ∧
      (HoldsInstance (built 7) ∧ (6 : Word).toNat < (built 7).m.toNat ∧
        (6 : Word).toNat < 2 ^ 63) ∧
      (HoldsInstance (built 0xFFFFFFFFFFFFFFFF) ∧
        (built 0xFFFFFFFFFFFFFFFF).m = 0xFFFFFFFFFFFFFFFF) :=
  ⟨⟨holds_built_1.2, rfl⟩, ⟨holds_built_2.2, rfl⟩, ⟨holds_built_two_pow_63.2, rfl⟩,
    ⟨holds_built_7.2, by decide, by decide⟩, ⟨holds_built_max.2, rfl⟩⟩

theorem witness_RedAnswersTheWrappedDifference : (built 7).valid = true := rfl

theorem witness_RedCorrectionWrapsAtSixtyFourBits :
    (built 7).valid = true ∧ (quotient 48 (built 7)).toNat = (48 : Word).toNat / (built 7).m.toNat := by
  decide

theorem witness_RedIsTheRemainderOrAllOnes :
    (built 7).valid = true ∧ HoldsInstance (built 7) ∧ (built 7).m = 7 ∧
      InExactnessDomain 0xAAAAAAAAAAAAAAAC (built 7) ∧
      ¬ InExactnessDomain 0xAAAAAAAAAAAAAAAD (built 7) ∧
      (0xAAAAAAAAAAAAAAAC : Word).toNat % (built 7).m.toNat ≠ (built 7).m.toNat - 1 ∧
      (built 7).m.toNat ∣ (49 : Word).toNat ∧ (0x7FFFFFFFFFFFFFFF : Word).toNat < 2 ^ 63 :=
  ⟨rfl, holds_built_7.2, rfl, exactness_boundary_of_7.1, exactness_boundary_of_7.2, by decide,
    by decide, by decide⟩

theorem witness_RedBySpecialDivisors :
    (HoldsInstance (built 1) ∧ (built 1).m = 1) ∧
      (HoldsInstance (built 2) ∧ (built 2).m.toNat = 2 ^ 1) ∧
      (HoldsInstance (built 0x8000000000000000) ∧ (built 0x8000000000000000).m.toNat = 2 ^ 63) :=
  ⟨⟨holds_built_1.2, rfl⟩, ⟨holds_built_2.2, rfl⟩, ⟨holds_built_two_pow_63.2, rfl⟩⟩

theorem witness_InexactResultsAreDetectableByRed :
    (built 7).valid = true ∧ HoldsInstance (built 7) ∧
      remainder 0xAAAAAAAAAAAAAAAD (built 7) = 0xFFFFFFFFFFFFFFFF ∧
      (0x7FFFFFFFFFFFFFFF : Word).toNat < 2 ^ 63 :=
  ⟨rfl, holds_built_7.2, by decide, by decide⟩

theorem witness_NoDivisorWhileNotValid :
    State.reset.valid = false ∧
      ∃ t, exec (.div 5) State.reset = .next t ∧ Answered State.reset t .noDivisor 0 :=
  ⟨rfl, _, rfl, rfl, rfl⟩

theorem witness_ReservedOpcodeIsIllegal :
    (0x0FFFFFFFFFFFFFFFF#66).toNat < 2 ^ 64 ∧
      ∃ t, exec (.reserved 5) (built 7) = .next t ∧ Answered (built 7) t .illegalOp 0 :=
  ⟨by decide, _, rfl, rfl, rfl⟩

/-- The three errors, each in a state that raises it. -/
theorem witness_ErrorsChangeNothingButValid :
    (∃ t, exec (.reserved 5) (built 7) = .next t ∧ Answered (built 7) t .illegalOp 0) ∧
      (∃ t, exec (.red 5) State.reset = .next t ∧ Answered State.reset t .noDivisor 0) ∧
      (∃ t, exec (.build 0) (built 7) = .next t ∧ Answered (built 7) t .zeroDivisor 0) :=
  ⟨⟨_, rfl, rfl, rfl⟩, ⟨_, rfl, rfl, rfl⟩, ⟨_, rfl, rfl, rfl⟩⟩

theorem witness_ErrorsRepeatUntilABuild :
    (∃ t, exec (.build 0) (built 7) = .next t ∧ Answered (built 7) t .zeroDivisor 0) ∧
      Status.zeroDivisor ≠ .ok ∧ (7 : Word) ≠ 0 :=
  ⟨⟨_, rfl, rfl, rfl⟩, by decide, by decide⟩

theorem witness_NothingSucceedsBeforeABuild :
    State.reset.valid = false ∧
      Presents (presenting [encode (.red 5), encode (.build 0)] State.reset) [.red 5, .build 0] ∧
      ∀ d, Instr.build d ∈ [Instr.red 5, Instr.build 0] → d = 0 :=
  ⟨rfl, rfl, by simp⟩

theorem witness_ReadingCommandsOnlyRespond :
    (∀ d, Instr.div 48 ≠ .build d) ∧ ∃ t, exec (.div 48) (built 7) = .next t :=
  ⟨by simp, _, rfl⟩

theorem witness_BuildChangesOnlyRegisters :
    (∃ t, exec (.build 7) (built 2) = .next t) ∧ ∃ t, exec (.build 0) (built 2) = .next t :=
  ⟨⟨_, exec_build_of_ne (by decide) _⟩, ⟨_, rfl⟩⟩

/-- `VALID` set by a `BUILD`, cleared by reset, and kept by a `DIV`. -/
theorem witness_OnlyBuildAndResetChangeRegisters :
    (∃ t, step (presenting [encode (.build 7)] State.reset) = .next t ∧ t.valid = true) ∧
      (∃ t, step { built 7 with pending := [.reset] } = .next t ∧ t.valid = false) ∧
      (∃ t, step (presenting [encode (.div 48)] (built 7)) = .next t) ∧
      (∀ d rest, (presenting [encode (.div 48)] (built 7)).pending
        ≠ .command (encode (.build d)) :: rest) := by
  refine ⟨⟨_, rfl, rfl⟩, ⟨_, rfl, rfl⟩, ⟨_, rfl⟩, fun d rest h => ?_⟩
  have h' : encode (.div 48) = encode (.build d) := by
    have := (List.cons.inj h).1
    exact HostEvent.command.inj this
  have hd := congrArg opField h'
  have h1 : opField (encode (.build d)) = 0b01#2 := by
    apply BitVec.eq_of_toNat_eq
    have he : (encode (.build d)).toNat = 2 ^ 64 + d.toNat := by
      rw [encode, BitVec.toNat_append, Nat.shiftLeft_eq, Nat.mul_comm]
      exact (Nat.two_pow_add_eq_or_of_lt d.isLt 1).symm
    have := d.isLt
    rw [opField_toNat, he]
    simp
    omega
  rw [h1] at hd
  exact absurd hd (by decide)

theorem witness_ReadingCommandsAreIndependent :
    (presenting [encode (.div 48), encode (.red 48)] (built 7)).valid = true ∧
      Presents (presenting [encode (.div 48), encode (.red 48)] (built 7)) [.div 48, .red 48] ∧
      ∀ i ∈ [Instr.div 48, Instr.red 48], ∃ n, i = .div n ∨ i = .red n :=
  ⟨rfl, rfl, by simp⟩

theorem witness_InstanceLastsUntilTheNextBuild :
    (7 : Word) ≠ 0 ∧
      Presents (presenting [encode (.build 7), encode (.div 48), encode (.reserved 5)] State.reset)
        [.build 7, .div 48, .reserved 5] ∧
      ∀ i ∈ [Instr.div 48, Instr.reserved 5], ∀ d, i ≠ .build d :=
  ⟨by decide, rfl, by simp⟩

theorem witness_DiagnosticPortShowsTheInstance : (built 7).valid = true := rfl

theorem witness_MulredReducesTheProduct :
    2 ^ 64 ≤ (0x100000000 : Word).toNat * (0x100000000 : Word).toNat ∧
      (0xFFFFFFFF : Word).toNat * (0xFFFFFFFF : Word).toNat < 2 ^ 64 ∧
      (3 : Word).toNat * (0x2AAAAAAAAAAAAAAA : Word).toNat < 2 ^ 63 ∧
      State.reset.valid = false ∧ (built 7).valid = true ∧ HoldsInstance (built 7) ∧
      InExactnessDomain (3 * 0x2AAAAAAAAAAAAAAA) (built 7) := by
  refine ⟨by decide, by decide, by decide, rfl, rfl, holds_built_7.2, ?_⟩
  unfold InExactnessDomain errorTerm; decide

theorem witness_FactmodAgreesWithTheOracle :
    (1000 : Word) ≠ 0 ∧ max 1 ((1000 : Word).toNat - 1) * (10 : Word).toNat < 2 ^ 63 ∧
      1 ≤ (10 : Word).toNat := by decide

theorem witness_FactmodCornerCases :
    (1000 : Word) ≠ 0 ∧ 1 ≤ (5 : Word).toNat ∧ ∃ t, factmod 0 1000 State.reset = .next (t, 1) :=
  ⟨by decide, by decide, _, rfl⟩

/-- Where the first two clauses meet: `FACTMOD 0, 1` returns 1 (R76 item 1), `FACTMOD 1, 1` returns 0
(item 2). -/
theorem witness_FactmodCornerCases_where_they_meet :
    (1 : Word) ≠ 0 ∧ 1 ≤ (1 : Word).toNat ∧ (∃ t, factmod 0 1 State.reset = .next (t, 1)) ∧
      ∃ t, factmod 1 1 State.reset = .next (t, 0) :=
  ⟨by decide, by decide, ⟨_, rfl⟩, _, rfl⟩

/-- One operand triple for the precondition, and one at the boundary of each way out of it. -/
theorem witness_HardwareStrategyAgreesWithTheOracle :
    (0 < 1000 ∧ 1000 < 2 ^ 32 ∧ 880 * 10 < 2 ^ 64 ∧ 880 * 10 / 2 ^ 32 < 1000) ∧
      (0 < 2 ^ 32 - 1 ∧ 2 ^ 32 - 1 < 2 ^ 32 ∧ (2 ^ 32 - 2) * 2 ^ 32 < 2 ^ 64 ∧
        (2 ^ 32 - 2) * 2 ^ 32 / 2 ^ 32 < 2 ^ 32 - 1) ∧
      2 ^ 32 ≤ 2 ^ 32 ∧ 2 ^ 64 ≤ 2 ^ 32 * 2 ^ 32 ∧ 7 ≤ 7 * 2 ^ 32 / 2 ^ 32 := by decide
theorem test_hardwareReduce_refusals :
    hardwareReduce 1 1 0 = .refused .divisionPrecondition ∧
      hardwareReduce 4294967296 4294967296 7 = .refused .divisionPrecondition ∧
      hardwareReduce 7 4294967296 7 = .refused .divisionPrecondition ∧
      hardwareReduce 6 4294967296 7 = .next 3 := ⟨rfl, rfl, rfl, rfl⟩

/-- A decimal literal with `_` and a hexadecimal one with zeros before it, of either case, on both sides
of the two ranges; each end of a line; an extra word. -/
theorem witness_AssemblerRefusesLiteralsOutOfRange :
    SpellsLiteral 1000 ['1', '_', '0', '0', '0'] ∧ SpellsLiteral 1000 ['0', 'x', '0', '3', 'E', '8'] ∧
      (∀ v ∈ [2 ^ 64 - 1, 2 ^ 64, 2 ^ 66 - 1, 2 ^ 66], SpellsLiteral v (Nat.toDigits 10 v)) ∧
      EndsLine [] ∧ EndsLine [' ', ';', ';'] ∧
      ['b', 'U', 'i', 'l', 'd'].map Char.toUpper = ['B', 'U', 'I', 'L', 'D'] ∧
      ['.', 'c', 'm', 'd'].map Char.toUpper = ['.', 'C', 'M', 'D'] ∧
      '1' ≠ ' ' ∧ '1' ≠ '\t' ∧ '1' ≠ ';' :=
  ⟨.inl ⟨[['1'], ['0', '0', '0']], by decide, rfl, 0, by decide⟩,
    .inr ⟨_, rfl, [['0', '3', 'E', '8']], by decide, rfl, 1, by decide⟩,
    fun v _ => spellsLiteral_decimal v, ⟨0, [], .inl rfl⟩, ⟨1, [';'], .inr rfl⟩,
    by decide, by decide, by decide, by decide, by decide⟩

end Sys2Proof.Tests
end

section
/-! PROOFS of the statements on scope: what a step runs, and what it answers (spec/00_scope.md R6). -/

namespace Sys2Proof

/-- A command is well-formed by its type, whatever word it was decoded from (R35). -/
theorem Instr.wf_eq_true (i : Instr) : i.wf = true := decide_eq_true i.operand.isLt

/-- A 66-bit word, read as a number, is that command word again (R35, R41). -/
theorem commandWord_toNat (w : CMD66) : commandWord w.toNat = .ok w := by
  have inRange : commandWordInRange w.toNat = true := decide_eq_true w.isLt
  rw [commandWord, if_pos inRange, BitVec.ofNat_toNat, BitVec.setWidth_eq]

end Sys2Proof

namespace Sys2Proof.Machine

open Sys2Proof.Safety

/-! ### The word presented as the very next one -/

theorem withFetchWord_toNat {nbits : Nat} (h : 66 ≤ nbits) (w : CMD66) (s : State) :
    s.withFetchWord nbits w.toNat = presentNext w s := by
  have fits : w.toNat < 2 ^ nbits :=
    w.isLt.trans_le (Nat.pow_le_pow_right Nat.two_pos h)
  rw [State.withFetchWord, if_pos fits, commandWord_toNat]

/-- Taking the word just presented gives back the state it was presented to. -/
theorem step_presentNext (w : CMD66) (s : State) :
    step (presentNext w s) = exec (decode w) s :=
  step_of_command (presentNext_pending s w)

/-! ### What every command leaves in the two lists of the host's side -/

theorem respond_answered {s u : State} (hp : u.pending = s.pending)
    (hr : u.responses = s.responses) (st : Status) (data : Word) :
    Answered s (respond st data u) st data :=
  ⟨by rw [respond_responses, hr], by rw [respond_pending, hp]⟩

/-- Whatever `VALID` is, `DIV` and `RED` answer once (R82, R84). -/
theorem answerIfBuilt_answered (result : State → Word) (s : State) :
    ∃ st data, Answered s (answerIfBuilt result s) st data := by
  cases hv : s.valid with
  | false =>
    rw [answerIfBuilt_of_not_valid hv, raise_eq_respond]
    exact ⟨_, _, respond_answered rfl rfl _ _⟩
  | true =>
    rw [answerIfBuilt_of_valid hv]
    exact ⟨_, _, respond_answered rfl rfl _ _⟩

theorem exec_div (n : Word) (s : State) :
    exec (.div n) s = .next (answerIfBuilt (quotient n) s) := rfl

theorem exec_red (n : Word) (s : State) :
    exec (.red n) s = .next (answerIfBuilt (remainder n) s) := rfl

/-- Every command completes, adds one response and takes nothing from what is presented (R6, R80). -/
theorem exec_answered (i : Instr) (s : State) :
    ∃ t st data, exec i s = .next t ∧ Answered s t st data := by
  cases i with
  | reserved imm => exact ⟨_, _, _, exec_reserved imm s, respond_answered rfl rfl _ _⟩
  | build d =>
    by_cases hd : d = 0
    · subst hd
      exact ⟨_, _, _, exec_build_zero s,
        respond_answered (dropInstance_pending s) (dropInstance_responses s) _ _⟩
    · exact ⟨_, _, _, exec_build_of_ne hd s,
        respond_answered (constructInstance_pending s d) (constructInstance_responses s d) _ _⟩
  | div n =>
    obtain ⟨st, data, answered⟩ := answerIfBuilt_answered (quotient n) s
    exact ⟨_, st, data, exec_div n s, answered⟩
  | red n =>
    obtain ⟨st, data, answered⟩ := answerIfBuilt_answered (remainder n) s
    exact ⟨_, st, data, exec_red n s, answered⟩

/-! ### The statements -/

/-- Settles O4: the step's equation for each kind of event, and `withFetchWord` as a presentation. -/
theorem stepRunsTheDecodedCommand : Obligations.StepRunsTheDecodedCommand := by
  refine ⟨fun s w rest h => ⟨(decode w).wf_eq_true, step_of_command h⟩,
    fun s h => step_of_nil h, fun s w => ?_⟩
  rw [withFetchWord_toNat (by decide), step_presentNext]

/-- Settles O5, by cases on the first event presented; a command is answered by `exec_answered`. -/
theorem stepGivesOneResponsePerCommand : Obligations.StepGivesOneResponsePerCommand := by
  intro s
  cases hp : s.pending with
  | nil => exact ⟨s, step_of_nil hp, by simp [hp]⟩
  | cons e rest =>
    cases e with
    | command w =>
      obtain ⟨t, st, data, hexec, hresp, hpend⟩ :=
        exec_answered (decode w) { s with pending := rest }
      exact ⟨t, (step_of_command hp).trans hexec, hpend, fun _ _ _ => ⟨_, hresp⟩, by simp, by simp⟩
    | reset => exact ⟨_, step_of_reset hp, by simp⟩

end Sys2Proof.Machine
end

section
/-! PROOFS of the statements on the state: the invariant of the four registers, which events write
them, and what the commands that only read them leave unchanged (spec/10_state.md). -/

namespace Sys2Proof

/-! ### A command word is its opcode and its operand -/

@[simp] theorem opField_encode (i : Instr) : opField (encode i) = opcodeOf i :=
  BitVec.extractLsb'_append_eq_left

@[simp] theorem immField_encode (i : Instr) : immField (encode i) = i.operand :=
  BitVec.extractLsb'_append_eq_right

/-- Encoding loses nothing of a command (R35, R37). -/
@[simp] theorem decode_encode (i : Instr) : decode (encode i) = i := by
  rw [decode, opField_encode, immField_encode]
  cases i <;> rfl

@[simp] theorem operand_decode (w : CMD66) : (decode w).operand = immField w := by
  unfold decode
  split_ifs <;> rfl

/-- `OP` is the opcode of the decoded command: its last case is the fourth opcode (R37). -/
@[simp] theorem opcodeOf_decode (w : CMD66) : opcodeOf (decode w) = opField w := by
  have four : ∀ op : OpField, op ≠ 0b00#2 → op ≠ 0b01#2 → op ≠ 0b10#2 → 0b11#2 = op := by decide
  unfold decode
  split_ifs with h0 h1 h2
  · exact h0.symm
  · exact h1.symm
  · exact h2.symm
  · exact four _ h0 h1 h2

/-- Decoding loses nothing of a word: every word is the word of its command (R35, R37). -/
@[simp] theorem encode_decode (w : CMD66) : encode (decode w) = w := by
  rw [encode, opcodeOf_decode, operand_decode]
  exact BitVec.extractLsb'_append_extractLsb'

end Sys2Proof

namespace Sys2Proof.Machine

open Sys2Proof.Safety

/-! ### The construction, in exact arithmetic: nothing is cut from `SHIFT` or `MULT` -/

theorem toNat_pos_of_ne {d : Word} (hd : d ≠ 0) : 1 ≤ d.toNat :=
  Nat.pos_of_ne_zero fun h => hd (BitVec.eq_of_toNat_eq h)

/-- `SHIFT` is `shift_of(d)` as a number (R46). -/
theorem shiftOf_toNat_eq_shiftNumber {d : Word} (hd : d ≠ 0) :
    (shiftOf d).toNat = shiftNumber d.toNat := by
  by_cases h1 : d = 1
  · subst h1
    rfl
  · have hn1 : d.toNat ≠ 1 := fun h => h1 (BitVec.eq_of_toNat_eq h)
    have pred : (d - 1).toNat = d.toNat - 1 :=
      BitVec.toNat_sub_of_le (show 1 ≤ d.toNat from toNat_pos_of_ne hd)
    rw [shiftOf_toNat h1, msb, pred, shiftNumber, if_neg hn1]

/-- The numerator of the construction fits its 128 bits (R47, R49). -/
theorem numeratorOf_toNat {d : Word} (hd : d ≠ 0) :
    (numeratorOf d).toNat = 2 ^ (shiftOf d).toNat + d.toNat - 1 := by
  have pos : 1 ≤ d.toNat := toNat_pos_of_ne hd
  have lt : d.toNat < 2 ^ 64 := d.isLt
  have scale : 2 ^ (shiftOf d).toNat ≤ 2 ^ 127 :=
    Nat.pow_le_pow_right Nat.two_pos (Nat.le_of_lt_succ (shiftOf d).isLt)
  have sum : (oneShiftLeft128 (shiftOf d) + zext128 d).toNat
      = 2 ^ (shiftOf d).toNat + d.toNat := by
    rw [BitVec.toNat_add, oneShiftLeft128_toNat, zext128_toNat]
    exact Nat.mod_eq_of_lt (by omega)
  have one_le : (1 : Wide) ≤ oneShiftLeft128 (shiftOf d) + zext128 d := by
    rw [BitVec.le_def, sum]
    exact pos.trans (Nat.le_add_left ..)
  rw [numeratorOf, BitVec.toNat_sub_of_le one_le, sum]
  rfl

/-- The scale is below `2^64` times the divisor with room for the rounding up (R46, R48). -/
theorem two_pow_shiftNumber_le {d : Nat} (hd : 2 ≤ d) :
    2 ^ shiftNumber d ≤ 2 ^ 64 * (d - 1) := by
  rw [shiftNumber, if_neg (by omega), pow_add]
  exact Nat.mul_le_mul_left _ (Nat.log2_self_le (by omega))

/-- The reciprocal fits 64 bits before any narrowing (R48). -/
theorem multNumber_lt {d : Nat} (pos : 1 ≤ d) (lt : d < 2 ^ 64) : multNumber d < 2 ^ 64 := by
  rcases pos.eq_or_lt with rfl | two_le
  · decide
  · have scale := two_pow_shiftNumber_le two_le
    rw [multNumber, Nat.div_lt_iff_lt_mul pos]
    omega

/-- `MULT` is `mult_of(d)` as a number (R47). -/
theorem multOf_toNat_eq_multNumber {d : Word} (hd : d ≠ 0) :
    (multOf d).toNat = multNumber d.toNat := by
  have quotientEq : (floorDiv128 (numeratorOf d) (zext128 d)).toNat = multNumber d.toNat := by
    rw [floorDiv128_toNat, numeratorOf_toNat hd, zext128_toNat, shiftOf_toNat_eq_shiftNumber hd,
      multNumber]
  rw [multOf, trunc64_toNat, quotientEq,
    Nat.mod_eq_of_lt (multNumber_lt (toNat_pos_of_ne hd) d.isLt)]

/-- What a successful `BUILD` writes is what R15 asks of its operand's registers (R45). -/
theorem holdsInstance_of_built {d : Word} (hd : d ≠ 0) {t : State} (hm : t.m = d)
    (hshift : t.shift = shiftOf d) (hmult : t.mult = multOf d) : HoldsInstance t := by
  subst hm
  exact ⟨toNat_pos_of_ne hd, by rw [hshift, shiftOf_toNat_eq_shiftNumber hd],
    by rw [hmult, multOf_toNat_eq_multNumber hd]⟩

/-- `HoldsInstance` is a matter of the three value registers. -/
theorem holdsInstance_of_sameRegisters {s t : State} (same : SameRegisters s t)
    (h : HoldsInstance s) : HoldsInstance t := by
  obtain ⟨-, hm, hshift, hmult⟩ := same
  rwa [HoldsInstance, hm, hshift, hmult]

/-! ### What a command and a step can do to the registers -/

theorem sameRegisters_refl (s : State) : SameRegisters s s := ⟨rfl, rfl, rfl, rfl⟩

theorem sameRegisters_trans {s t u : State} (hst : SameRegisters s t) (htu : SameRegisters t u) :
    SameRegisters s u := by
  obtain ⟨hvalid, hm, hshift, hmult⟩ := hst
  obtain ⟨hvalid', hm', hshift', hmult'⟩ := htu
  exact ⟨hvalid'.trans hvalid, hm'.trans hm, hshift'.trans hshift, hmult'.trans hmult⟩

theorem sameRegisters_respond (st : Status) (data : Word) (s : State) :
    SameRegisters s (respond st data s) := ⟨rfl, rfl, rfl, rfl⟩

theorem answerIfBuilt_eq_respond (result : State → Word) (s : State) :
    ∃ st data, answerIfBuilt result s = respond st data s := by
  cases hv : s.valid with
  | false => exact ⟨_, _, answerIfBuilt_of_not_valid hv result⟩
  | true => exact ⟨_, _, answerIfBuilt_of_valid hv result⟩

/-- A command that is no `BUILD` gives a response and does nothing else (R16, R28). -/
theorem exec_of_not_build {i : Instr} (h : ∀ d, i ≠ .build d) (s : State) :
    ∃ st data, exec i s = .next (respond st data s) := by
  cases i with
  | reserved imm => exact ⟨_, _, exec_reserved imm s⟩
  | build d => exact absurd rfl (h d)
  | div n =>
    obtain ⟨st, data, hr⟩ := answerIfBuilt_eq_respond (quotient n) s
    exact ⟨st, data, by rw [exec_div, hr]⟩
  | red n =>
    obtain ⟨st, data, hr⟩ := answerIfBuilt_eq_respond (remainder n) s
    exact ⟨st, data, by rw [exec_red, hr]⟩

/-- `exec_answered`, for a next state that is given. -/
theorem answered_of_exec {i : Instr} {s t : State} (h : exec i s = .next t) :
    ∃ st data, Answered s t st data := by
  obtain ⟨u, st, data, hexec, answered⟩ := exec_answered i s
  obtain rfl : u = t := Host.Outcome.next.inj (hexec.symm.trans h)
  exact ⟨st, data, answered⟩

/-- The three things a step from `s` to `t` can do to the registers, and when (R14, R16). -/
inductive RegisterChange (s t : State) : Prop where
  /-- All four registers are as before. -/
  | kept (same : SameRegisters s t)
  /-- A `BUILD` whose operand is not 0 writes all four together. -/
  | built (d : Word) (rest : List HostEvent) (hd : d ≠ 0)
      (presented : s.pending = .command (encode (.build d)) :: rest)
      (hvalid : t.valid = true) (hm : t.m = d) (hshift : t.shift = shiftOf d)
      (hmult : t.mult = multOf d)
  /-- A reset event or a `BUILD 0` clears `VALID`, and the value registers are unspecified. -/
  | dropped (rest : List HostEvent)
      (presented : s.pending = .reset :: rest ∨ s.pending = .command (encode (.build 0)) :: rest)
      (hvalid : t.valid = false)

/-- Every step is one of the three: a `BUILD` is told apart from the other commands, and 0 from the
other operands. -/
theorem step_registerChange {s t : State} (h : step s = .next t) : RegisterChange s t := by
  cases hp : s.pending with
  | nil =>
    rw [step_of_nil hp] at h
    obtain rfl := Host.Outcome.next.inj h
    exact .kept (sameRegisters_refl s)
  | cons e rest =>
    cases e with
    | reset =>
      rw [step_of_reset hp] at h
      obtain rfl := Host.Outcome.next.inj h
      exact .dropped rest (.inl hp) (applyReset_valid _)
    | command w =>
      rw [step_of_command hp] at h
      by_cases isBuild : ∃ d, decode w = .build d
      · obtain ⟨d, hw⟩ := isBuild
        have presented : s.pending = .command (encode (.build d)) :: rest := by
          rw [← hw, encode_decode, hp]
        rw [hw] at h
        by_cases hd : d = 0
        · subst hd
          rw [exec_build_zero] at h
          obtain rfl := Host.Outcome.next.inj h
          exact .dropped rest (.inr presented) rfl
        · rw [exec_build_of_ne hd] at h
          obtain rfl := Host.Outcome.next.inj h
          exact .built d rest hd presented rfl rfl rfl rfl
      · obtain ⟨st, data, hexec⟩ :=
          exec_of_not_build (fun d hd => isBuild ⟨d, hd⟩) { s with pending := rest }
        obtain rfl := Host.Outcome.next.inj (hexec.symm.trans h)
        exact .kept (sameRegisters_respond st data _)

/-! ### Commands that read the registers -/

/-- What `DIV` or `RED` answers while `VALID = 1` (R55, R62); no other command has a result. -/
def readingResult : Instr → State → Word
  | .div n, s => quotient n s
  | .red n, s => remainder n s
  | _, _ => 0

theorem exec_reading_of_valid {i : Instr} (reading : ∃ n, i = .div n ∨ i = .red n) {s : State}
    (hv : s.valid = true) : exec i s = .next (respond .ok (readingResult i s) s) := by
  obtain ⟨n, rfl | rfl⟩ := reading
  · exact exec_div_of_valid n hv
  · exact exec_red_of_valid n hv

/-- A result is a matter of the registers: not of what is presented or was answered before (R21). -/
theorem readingResult_of_sameRegisters {s t : State} (same : SameRegisters s t) (i : Instr) :
    readingResult i t = readingResult i s := by
  obtain ⟨-, hm, hshift, hmult⟩ := same
  have hq (n : Word) : quotient n t = quotient n s := by rw [quotient, quotient, hmult, hshift]
  cases i with
  | reserved imm => rfl
  | build d => rfl
  | div n => exact hq n
  | red n => rw [readingResult, readingResult, remainder_eq, remainder_eq, hq, hm]

/-- The first of several presented commands is the one that a step runs, the registers being as they
were and the others still presented (R30). -/
theorem step_of_presents {i : Instr} {is : List Instr} {s : State}
    (presents : Presents s (i :: is)) :
    ∃ u, step s = exec i u ∧ SameRegisters s u ∧ Presents u is ∧ u.responses = s.responses := by
  have hstep := step_of_command presents
  rw [decode_encode] at hstep
  exact ⟨_, hstep, ⟨rfl, rfl, rfl, rfl⟩, rfl, rfl⟩

/-- One step over a `DIV` or `RED`: its command is taken and answered, and the registers stay. -/
theorem step_reading {i : Instr} {is : List Instr} {s : State} (hv : s.valid = true)
    (presents : Presents s (i :: is)) (reading : ∃ n, i = .div n ∨ i = .red n) :
    ∃ t, step s = .next t ∧ SameRegisters s t ∧ Presents t is ∧
      t.responses = s.responses ++ [responseWord .ok (readingResult i s)] := by
  obtain ⟨u, hstep, hsu, hpres, hresp⟩ := step_of_presents presents
  rw [exec_reading_of_valid reading (hsu.1.trans hv), readingResult_of_sameRegisters hsu] at hstep
  exact ⟨_, hstep, sameRegisters_trans hsu (sameRegisters_respond _ _ u), hpres,
    by rw [respond_responses, hresp]⟩

/-- A run over `DIV` and `RED` commands: the registers stay, and every answer is the one that the
command has in the first state (R65 item 4). -/
theorem run_reading (is : List Instr) (s : State) (hv : s.valid = true) (presents : Presents s is)
    (reading : ∀ i ∈ is, ∃ n, i = .div n ∨ i = .red n) :
    ∃ t, Host.Core.run core is.length s = .next t ∧ SameRegisters s t ∧
      t.responses = s.responses ++ is.map fun i => responseWord .ok (readingResult i s) := by
  induction is generalizing s with
  | nil => exact ⟨s, rfl, sameRegisters_refl s, (List.append_nil _).symm⟩
  | cons i is ih =>
    rw [List.forall_mem_cons] at reading
    obtain ⟨readsFirst, readsRest⟩ := reading
    obtain ⟨u, hstep, hsu, hpres, hresp⟩ := step_reading hv presents readsFirst
    obtain ⟨t, hrun, hut, hresp'⟩ := ih u (hsu.1.trans hv) hpres readsRest
    refine ⟨t, (run_succ_of_step hstep is.length).trans hrun, sameRegisters_trans hsu hut, ?_⟩
    simp only [hresp', hresp, readingResult_of_sameRegisters hsu, List.map_cons, List.append_assoc,
      List.singleton_append]

/-! ### The diagnostic port -/

theorem diagPort_of_absent (reading : Nat) (s : State) :
    diagPort { hasDiagPort := false } reading s = none := rfl

/-- While `VALID = 1` the port shows the four registers (R22). -/
theorem diagPort_of_valid (reading : Nat) {s : State} (hv : s.valid = true) :
    diagPort { hasDiagPort := true } reading s = some ⟨s.valid, s.m, s.shift, s.mult⟩ := by
  rw [diagPort, if_pos rfl, if_pos hv]

/-- While `VALID = 0` the port shows that, and its three value outputs are free (R22). -/
theorem diagPort_of_not_valid (reading : Nat) {s : State} (hv : s.valid = false) :
    ∃ m shift mult,
      diagPort { hasDiagPort := true } reading s = some ⟨s.valid, m, shift, mult⟩ := by
  rw [diagPort, if_pos rfl, if_neg (by rw [hv]; exact Bool.false_ne_true)]
  exact ⟨_, _, _, rfl⟩

/-! ### The statements -/

/-- Settles O1: the three fields as `State.reset` gives them. -/
theorem resetHoldsNoInstance : Obligations.ResetHoldsNoInstance := ⟨rfl, rfl, rfl⟩

/-- Settles O2: `VALID = 0` after reset, so nothing is asked of the value registers. -/
theorem resetSatisfiesStateInvariant : Obligations.ResetSatisfiesStateInvariant := by
  intro hvalid
  obtain ⟨notValid, -, -⟩ := resetHoldsNoInstance
  exact absurd (notValid.symm.trans hvalid) Bool.false_ne_true

/-- Settles O3, by the three things a step can do to the registers: registers kept are right as
they were, registers built are right by the arithmetic of the construction, and after a drop
`VALID = 0`. -/
theorem stepKeepsStateInvariant : Obligations.StepKeepsStateInvariant := by
  intro s t inv h hvalid
  cases step_registerChange h with
  | kept same => exact holdsInstance_of_sameRegisters same (inv (same.1.symm.trans hvalid))
  | built d rest hd _ _ hm hshift hmult => exact holdsInstance_of_built hd hm hshift hmult
  | dropped rest _ notValid => exact absurd (notValid.symm.trans hvalid) Bool.false_ne_true

/-- Settles O41: such a command is a response to the state (`exec_of_not_build`). -/
theorem readingCommandsOnlyRespond : Obligations.ReadingCommandsOnlyRespond := by
  intro i s t notBuild h
  obtain ⟨st, data, hexec⟩ := exec_of_not_build notBuild s
  obtain rfl := Host.Outcome.next.inj (hexec.symm.trans h)
  exact ⟨sameRegisters_respond st data s, rfl, rfl, List.length_append, List.prefix_append ..⟩

/-- Settles O42: the response is that of every command (`answered_of_exec`), and a `BUILD` whose
operand is not 0 draws nothing. -/
theorem buildChangesOnlyRegisters : Obligations.BuildChangesOnlyRegisters := by
  intro d s t h
  obtain ⟨st, data, hresp, hpend⟩ := answered_of_exec h
  refine ⟨hpend, (congrArg List.length hresp).trans List.length_append, ⟨_, hresp.symm⟩,
    fun hd => ?_⟩
  obtain rfl := Host.Outcome.next.inj ((exec_build_of_ne hd s).symm.trans h)
  rfl

/-- Settles O43, by the three things a step can do to the registers: in each case one clause is left
to say, and the hypotheses of the others contradict it. -/
theorem onlyBuildAndResetChangeRegisters : Obligations.OnlyBuildAndResetChangeRegisters := by
  intro s t h
  cases step_registerChange h with
  | kept same =>
    refine ⟨fun h0 h1 => ?_, fun h1 h0 => ?_, fun _ _ => same⟩
    · exact absurd (h0.symm.trans (same.1.symm.trans h1)) Bool.false_ne_true
    · exact absurd (h0.symm.trans (same.1.trans h1)) Bool.false_ne_true
  | built d rest hd presented hvalid =>
    refine ⟨fun _ _ => ⟨d, rest, hd, presented⟩, fun _ h0 => ?_, fun notBuild _ => ?_⟩
    · exact absurd (h0.symm.trans hvalid) Bool.false_ne_true
    · exact absurd presented (notBuild d rest)
  | dropped rest presented hvalid =>
    refine ⟨fun _ h1 => ?_, fun _ _ => ⟨rest, presented⟩, fun notBuild notReset => ?_⟩
    · exact absurd (hvalid.symm.trans h1) Bool.false_ne_true
    · exact (presented.elim (notReset rest) (notBuild 0 rest)).elim

/-- Settles O44: the answers are the results of the first state, which the run gives
(`run_reading`) and each command alone gives (`exec_reading_of_valid`). -/
theorem readingCommandsAreIndependent : Obligations.ReadingCommandsAreIndependent := by
  intro is s hv presents reading
  obtain ⟨t, hrun, same, hresp⟩ := run_reading is s hv presents reading
  refine ⟨t, is.map fun i => readingResult i s, hrun, same, List.length_map .., ?_,
    fun k hk _ => ?_⟩
  · rw [hresp, List.map_map]
    rfl
  · rw [List.getElem_map]
    exact exec_reading_of_valid (reading _ (List.getElem_mem hk)) hv

/-- Settles O46, by cases on the parameter and on `VALID`. -/
theorem diagnosticPortShowsTheInstance : Obligations.DiagnosticPortShowsTheInstance := by
  intro reading s
  refine ⟨diagPort_of_absent reading s, ?_⟩
  cases hv : s.valid with
  | true => exact ⟨_, diagPort_of_valid reading hv, hv, fun _ => ⟨rfl, rfl, rfl⟩⟩
  | false =>
    obtain ⟨m, shift, mult, hread⟩ := diagPort_of_not_valid reading hv
    exact ⟨_, hread, hv, fun h => absurd h Bool.false_ne_true⟩

end Sys2Proof.Machine
end

section
/-! PROOFS of the statements on the order of commands: which response belongs to which command, and
how long what a `BUILD` wrote stays in place (spec/20_memory.md R30). -/

namespace Sys2Proof.Machine

open Sys2Proof.Safety

/-! ### Responses in the order of the commands -/

/-- A presented word is taken, its command runs, and one response is added (R6, R30). -/
theorem step_command_responds {w : CMD66} {rest : List HostEvent} {s : State}
    (presented : s.pending = .command w :: rest) :
    ∃ t r, step s = .next t ∧ exec (decode w) { s with pending := s.pending.tail } = .next t ∧
      t.pending = rest ∧ t.responses = s.responses ++ [r] := by
  obtain ⟨t, st, data, hexec, hresp, hpend⟩ := exec_answered (decode w) { s with pending := rest }
  exact ⟨t, responseWord st data, (step_of_command presented).trans hexec,
    by rw [presented]; exact hexec, hpend, hresp⟩

/-- `rs` are the answers to the words `ws` presented in `s`, one each: the `k`-th command runs on
the state that the ones before it left, which has added the first `k` of `rs`, and adds the next. -/
def AnsweredInOrder (ws : List CMD66) (s : State) (rs : List RSP66) : Prop :=
  rs.length = ws.length ∧
    ∀ k (hk : k < ws.length), ∃ u v,
      Host.Core.run core k s = .next u ∧ u.responses = s.responses ++ rs.take k ∧
      exec (decode ws[k]) { u with pending := u.pending.tail } = .next v ∧
      v.responses = s.responses ++ rs.take (k + 1)

/-- The first answer goes before the answers that the others get in the state it leaves. -/
theorem answeredInOrder_cons {w : CMD66} {ws : List CMD66} {s t : State} {r : RSP66}
    {rs : List RSP66} (hstep : step s = .next t)
    (hexec : exec (decode w) { s with pending := s.pending.tail } = .next t)
    (hresp : t.responses = s.responses ++ [r]) (others : AnsweredInOrder ws t rs) :
    AnsweredInOrder (w :: ws) s (r :: rs) := by
  obtain ⟨hlen, answers⟩ := others
  have shift (k : Nat) : t.responses ++ rs.take k = s.responses ++ (r :: rs).take (k + 1) := by
    rw [hresp, List.append_assoc, List.singleton_append, List.take_succ_cons]
  refine ⟨congrArg (· + 1) hlen, fun k hk => ?_⟩
  cases k with
  | zero => exact ⟨s, t, rfl, (List.append_nil _).symm, hexec, hresp⟩
  | succ k =>
    obtain ⟨u, v, hrun, hu, hexec', hv⟩ := answers k (Nat.lt_of_succ_lt_succ hk)
    exact ⟨u, v, (run_succ_of_step hstep k).trans hrun, hu.trans (shift k), hexec',
      hv.trans (shift (k + 1))⟩

/-- A run over presented words takes them all and answers them in order. -/
theorem run_commands (ws : List CMD66) (s : State) (presented : s.pending = ws.map .command) :
    ∃ t rs, Host.Core.run core ws.length s = .next t ∧ t.pending = [] ∧
      t.responses = s.responses ++ rs ∧ AnsweredInOrder ws s rs := by
  induction ws generalizing s with
  | nil => exact ⟨s, [], rfl, presented, (List.append_nil _).symm, rfl, fun _ hk => nomatch hk⟩
  | cons w ws ih =>
    obtain ⟨u, r, hstep, hexec, hpend, hresp⟩ := step_command_responds presented
    obtain ⟨t, rs, hrun, hdone, hresp', others⟩ := ih u hpend
    refine ⟨t, r :: rs, (run_succ_of_step hstep ws.length).trans hrun, hdone, ?_,
      answeredInOrder_cons hstep hexec hresp others⟩
    rw [hresp', hresp, List.append_assoc, List.singleton_append]

/-! ### Commands that are no `BUILD` -/

/-- A run over commands that are no `BUILD` keeps the four registers, errors included (R16, R98). -/
theorem run_of_not_build (is : List Instr) (s : State) (presents : Presents s is)
    (notBuild : ∀ i ∈ is, ∀ d, i ≠ .build d) :
    ∃ t, Host.Core.run core is.length s = .next t ∧ SameRegisters s t := by
  induction is generalizing s with
  | nil => exact ⟨s, rfl, sameRegisters_refl s⟩
  | cons i is ih =>
    rw [List.forall_mem_cons] at notBuild
    obtain ⟨notBuildFirst, notBuildRest⟩ := notBuild
    obtain ⟨u, hstep, hsu, hpres, -⟩ := step_of_presents presents
    obtain ⟨st, data, hexec⟩ := exec_of_not_build notBuildFirst u
    obtain ⟨t, hrun, hut⟩ := ih (respond st data u) hpres notBuildRest
    exact ⟨t, (run_succ_of_step (hstep.trans hexec) is.length).trans hrun,
      sameRegisters_trans hsu (sameRegisters_trans (sameRegisters_respond st data u) hut)⟩

/-! ### The statements -/

/-- Settles O7: the words presented with nothing pending are all that is pending, so `run_commands`
gives the answers; the responses up to the `k`-th are the old ones and the first `k` of these. -/
theorem responsesFollowCommandOrder : Obligations.ResponsesFollowCommandOrder := by
  intro ws s nonePending
  have presented : (presentProgram ws s).pending = ws.map .command := by
    rw [presentProgram_pending, nonePending, List.nil_append]
  obtain ⟨t, rs, hrun, hdone, hresp, hlen, answers⟩ := run_commands ws _ presented
  rw [presentProgram_responses] at hresp
  have upTo (k : Nat) : t.responses.take (s.responses.length + k) = s.responses ++ rs.take k := by
    rw [hresp, List.take_length_add_append]
  refine ⟨t, hrun, hdone, by rw [hresp, List.length_append, hlen], ⟨rs, hresp.symm⟩,
    fun k hk => ?_⟩
  obtain ⟨u, v, hrunk, hu, hexec, hv⟩ := answers k hk
  exact ⟨u, v, hrunk, hu.trans (upTo k).symm, hexec, hv.trans (upTo (k + 1)).symm⟩

/-- Settles O45: `BUILD d` writes what R15 asks of `d` (`holdsInstance_of_built`), and the commands
after it keep the registers (`run_of_not_build`). -/
theorem instanceLastsUntilTheNextBuild : Obligations.InstanceLastsUntilTheNextBuild := by
  intro d is s hd presents notBuild
  obtain ⟨u, hstep, -, hpres, -⟩ := step_of_presents presents
  rw [exec_build_of_ne hd] at hstep
  obtain ⟨t, hrun, same⟩ :=
    run_of_not_build is (respond .ok 0 (constructInstance d u)) hpres notBuild
  have built : HoldsInstance (respond .ok 0 (constructInstance d u)) :=
    holdsInstance_of_built hd rfl rfl rfl
  have ⟨hvalid, hm, _⟩ := same
  exact ⟨t, (run_succ_of_step hstep is.length).trans hrun, hvalid, hm,
    holdsInstance_of_sameRegisters same built⟩

end Sys2Proof.Machine
end

section
/-! PROOFS of the statements on the encoding: command words as numbers, the opcode map, the numbers
that are no command word, the response word with its status and data, and the assembler's lines
(spec/30_encoding.md R35 to R42). -/

namespace Sys2Proof

/-! ### Command words -/

/-- `CMD = OP * 2^64 + IMM` (R35). -/
theorem encode_toNat (i : Instr) :
    (encode i).toNat = (opcodeOf i).toNat * 2 ^ 64 + i.operand.toNat := by
  rw [encode, BitVec.toNat_append, ← Nat.shiftLeft_add_eq_or_of_lt i.operand.isLt,
    Nat.shiftLeft_eq]

/-- A command and its word determine each other (R35). -/
theorem decode_eq_iff {w : CMD66} {i : Instr} : decode w = i ↔ w = encode i := by
  constructor
  · rintro rfl
    exact (encode_decode w).symm
  · rintro rfl
    exact decode_encode i

/-- `IMM` is the word's number modulo `2^64` (R35, R38). -/
theorem immField_eq_ofNat (w : CMD66) : immField w = BitVec.ofNat 64 w.toNat := by
  apply BitVec.eq_of_toNat_eq
  rw [immField_toNat, BitVec.toNat_ofNat]

/-! ### The opcode map -/

/-- A row's match is its opcode above 64 zeros (R37). -/
theorem matchBits_rowOf (i : Instr) : (rowOf i).matchBits = opcodeOf i ++ 0#64 := by
  cases i <;> simp only [rowOf, opcodeOf] <;> decide

/-- A word agrees with a row's match under the mask exactly when it has the row's `OP` (R37). -/
theorem masked_eq_matchBits_iff (w : CMD66) (i : Instr) :
    w &&& 0x30000000000000000#66 = (rowOf i).matchBits ↔ opField w = opcodeOf i := by
  conv_lhs => rw [← encode_decode w, encode, Laws.EncodesToItsRow.mask_append, opcodeOf_decode]
  rw [matchBits_rowOf, BitVec.append_left_inj]

/-- Two commands with the same opcode and the same operand are the same command (R37). -/
theorem instr_eq_of_fields {i j : Instr} (hop : opcodeOf i = opcodeOf j)
    (himm : i.operand = j.operand) : i = j := by
  have sameWord : encode i = encode j := by rw [encode, encode, hop, himm]
  rw [← decode_encode i, sameWord, decode_encode]

/-- A word agrees with a row's match under the mask exactly when it is the row's command with the
word's own `IMM` (R37). -/
theorem masked_eq_matchBits_iff_decode {w : CMD66} {i : Instr} (himm : i.operand = immField w) :
    w &&& 0x30000000000000000#66 = (rowOf i).matchBits ↔ decode w = i := by
  rw [masked_eq_matchBits_iff]
  constructor
  · intro hop
    exact instr_eq_of_fields (by rw [opcodeOf_decode, hop]) (by rw [operand_decode, himm])
  · rintro rfl
    exact (opcodeOf_decode w).symm

/-! ### Numbers as command words -/

theorem decodeNumber_toNat (w : CMD66) : decodeNumber w.toNat = .ok (decode w) := by
  rw [decodeNumber, commandWord_toNat]
  rfl

theorem decodeTableWord_toNat {nbits : Nat} (h : 66 ≤ nbits) (w : CMD66) :
    decodeTableWord nbits w.toNat = some (decode w) := by
  have fits : w.toNat < 2 ^ nbits :=
    w.isLt.trans_le (Nat.pow_le_pow_right Nat.two_pos h)
  rw [decodeTableWord, if_pos fits, decodeNumber_toNat]
  rfl

/-- A table word with a bit above 65 set is no command, whatever the table's width (R41). -/
theorem decodeTableWord_of_ge {v : Nat} (h : 2 ^ 66 ≤ v) (nbits : Nat) :
    decodeTableWord nbits v = none := by
  rw [decodeTableWord, (decodeNumber_refused_iff v).2 h]
  exact ite_self none

/-- A number out of the range of R35 is refused by name. -/
theorem commandWord_of_ge {v : Nat} (h : 2 ^ 66 ≤ v) :
    commandWord v = .error (.notACommandWord v) := by
  have outOfRange : commandWordInRange v = false := decide_eq_false (Nat.not_lt.2 h)
  rw [commandWord, outOfRange, if_neg Bool.false_ne_true]

/-- A number in the range of R35 is the command word of that number. -/
theorem commandWord_of_lt {v : Nat} (h : v < 2 ^ 66) : commandWord v = .ok (BitVec.ofNat 66 v) :=
  if_pos (decide_eq_true h)

/-! ### The statements on command words -/

/-- Settles O10: the two directions, and the word as a number. -/
theorem decodeAndEncodeAgree : Obligations.DecodeAndEncodeAgree :=
  ⟨decode_encode, encode_decode, encode_toNat⟩

/-- Settles O11: each row is `masked_eq_matchBits_iff_decode` for the row's command, and bits 65..64
are the quotient by `2^64` (`opField_toNat`). -/
theorem opcodeMapSelectsByMask : Obligations.OpcodeMapSelectsByMask := by
  refine ⟨fun w => ?_, fun w w' sameTop => ?_, rfl⟩
  · have himm := (immField_eq_ofNat w).symm
    exact ⟨masked_eq_matchBits_iff_decode (i := .reserved _) himm,
      masked_eq_matchBits_iff_decode (i := .build _) himm,
      masked_eq_matchBits_iff_decode (i := .div _) himm,
      masked_eq_matchBits_iff_decode (i := .red _) himm⟩
  · rw [opcodeOf_decode, opcodeOf_decode]
    apply BitVec.eq_of_toNat_eq
    rw [opField_toNat, opField_toNat, sameTop]

/-- Settles O12: each word is the encoding of its command. -/
theorem writtenOutWordsDecode : Obligations.WrittenOutWordsDecode :=
  ⟨decode_eq_iff.2 rfl, decode_eq_iff.2 rfl, decode_eq_iff.2 rfl, decode_eq_iff.2 rfl,
    decode_eq_iff.2 rfl⟩

/-- Settles O13, on the two sides of `2^66`. -/
theorem exactlyTheSixtySixBitNumbersDecode : Obligations.ExactlyTheSixtySixBitNumbersDecode :=
  ⟨fun w => ⟨decodeNumber_toNat w, decodeTableWord_toNat (by decide) w⟩,
    fun v h => ⟨(decodeNumber_refused_iff v).2 h, decodeTableWord_of_ge h⟩⟩

end Sys2Proof

namespace Sys2Proof.Machine

open Sys2Proof.Safety

/-! ### The status and the data of every answer -/

/-- The status that a command answers with in a state (R40): whether a divisor is 0 and what `VALID`
is decide it. -/
def answerStatus : Instr → State → Status
  | .reserved _, _ => .illegalOp
  | .build d, _ => if d = 0 then .zeroDivisor else .ok
  | .div _, s => if s.valid then .ok else .noDivisor
  | .red _, s => if s.valid then .ok else .noDivisor

/-- The data that a command answers with in a state: its result if it succeeds, else 0 (R36). -/
def answerData (i : Instr) (s : State) : Word :=
  if answerStatus i s = .ok then readingResult i s else 0

theorem answerStatus_build_of_ne {d : Word} (h : d ≠ 0) (s : State) :
    answerStatus (.build d) s = .ok := if_neg h

theorem answerStatus_reading_of_valid {i : Instr} (reading : ∃ n, i = .div n ∨ i = .red n)
    {s : State} (hv : s.valid = true) : answerStatus i s = .ok := by
  obtain ⟨n, rfl | rfl⟩ := reading
  · exact if_pos hv
  · exact if_pos hv

theorem answerStatus_reading_of_not_valid {i : Instr} (reading : ∃ n, i = .div n ∨ i = .red n)
    {s : State} (hv : s.valid = false) : answerStatus i s = .noDivisor := by
  obtain ⟨n, rfl | rfl⟩ := reading
  · exact if_neg (ne_true_of_eq_false hv)
  · exact if_neg (ne_true_of_eq_false hv)

theorem answerData_of_ok {i : Instr} {s : State} (h : answerStatus i s = .ok) :
    answerData i s = readingResult i s := if_pos h

theorem answerData_of_ne_ok {i : Instr} {s : State} (h : answerStatus i s ≠ .ok) :
    answerData i s = 0 := if_neg h

theorem answerData_build (d : Word) (s : State) : answerData (.build d) s = 0 := ite_self 0

theorem exec_reading_of_not_valid {i : Instr} (reading : ∃ n, i = .div n ∨ i = .red n) {s : State}
    (hv : s.valid = false) : exec i s = .next (raise .noDivisor s) := by
  obtain ⟨n, rfl | rfl⟩ := reading
  · exact exec_div_of_not_valid n hv
  · exact exec_red_of_not_valid n hv

/-- `DIV` and `RED` answer with that status and that data, whatever `VALID` is (R82, R84). -/
theorem exec_reading_answers {i : Instr} (reading : ∃ n, i = .div n ∨ i = .red n) (s : State) :
    exec i s = .next (respond (answerStatus i s) (answerData i s) s) := by
  cases hv : s.valid with
  | true =>
    have ok := answerStatus_reading_of_valid reading hv
    rw [answerData_of_ok ok, ok, exec_reading_of_valid reading hv]
  | false =>
    have noDivisor := answerStatus_reading_of_not_valid reading hv
    rw [answerData_of_ne_ok (by rw [noDivisor]; decide), noDivisor,
      exec_reading_of_not_valid reading hv, raise_eq_respond]
    rfl

/-- Every command answers with that status and that data, and takes nothing from what is presented
(R6, R36, R40). -/
theorem exec_answers (i : Instr) (s : State) :
    ∃ t, exec i s = .next t ∧ Answered s t (answerStatus i s) (answerData i s) := by
  cases i with
  | reserved imm => exact ⟨_, exec_reserved imm s, respond_answered rfl rfl _ _⟩
  | build d =>
    rw [answerData_build]
    by_cases hd : d = 0
    · subst hd
      exact ⟨_, exec_build_zero s,
        respond_answered (dropInstance_pending s) (dropInstance_responses s) _ _⟩
    · rw [answerStatus_build_of_ne hd]
      exact ⟨_, exec_build_of_ne hd s,
        respond_answered (constructInstance_pending s d) (constructInstance_responses s d) _ _⟩
  | div n => exact ⟨_, exec_reading_answers ⟨n, .inl rfl⟩ s, respond_answered rfl rfl _ _⟩
  | red n => exact ⟨_, exec_reading_answers ⟨n, .inr rfl⟩ s, respond_answered rfl rfl _ _⟩

/-! ### Which status when -/

/-- The command and the state that raise a status, a row of R40's table for each. -/
def RaisesStatus : Status → Instr → State → Prop
  | .ok, i, s =>
    (∃ d, i = .build d ∧ d ≠ 0) ∨ (s.valid = true ∧ ∃ n, i = .div n ∨ i = .red n)
  | .zeroDivisor, i, _ => i = .build 0
  | .noDivisor, i, s => s.valid = false ∧ ∃ n, i = .div n ∨ i = .red n
  | .illegalOp, i, _ => ∃ imm, i = .reserved imm

theorem answerStatus_of_raisesStatus {st : Status} {i : Instr} {s : State}
    (raises : RaisesStatus st i s) : answerStatus i s = st := by
  cases st with
  | ok =>
    obtain ⟨d, rfl, hd⟩ | ⟨hv, reading⟩ := raises
    · exact answerStatus_build_of_ne hd s
    · exact answerStatus_reading_of_valid reading hv
  | zeroDivisor =>
    obtain rfl := raises
    rfl
  | noDivisor =>
    obtain ⟨hv, reading⟩ := raises
    exact answerStatus_reading_of_not_valid reading hv
  | illegalOp =>
    obtain ⟨imm, rfl⟩ := raises
    rfl

/-- The table of R40 leaves no command in no state without a status. -/
theorem exists_raisesStatus (i : Instr) (s : State) : ∃ st, RaisesStatus st i s := by
  have ofReading (reading : ∃ n, i = .div n ∨ i = .red n) : ∃ st, RaisesStatus st i s := by
    cases hv : s.valid with
    | true => exact ⟨.ok, .inr ⟨hv, reading⟩⟩
    | false => exact ⟨.noDivisor, hv, reading⟩
  cases i with
  | reserved imm => exact ⟨.illegalOp, imm, rfl⟩
  | build d =>
    by_cases hd : d = 0
    · exact ⟨.zeroDivisor, congrArg Instr.build hd⟩
    · exact ⟨.ok, .inl ⟨d, rfl, hd⟩⟩
  | div n => exact ofReading ⟨n, .inl rfl⟩
  | red n => exact ofReading ⟨n, .inr rfl⟩

/-- A command answers with a status exactly where its row of R40 says so: some row applies, and the
answer has the status of every row that does. -/
theorem answerStatus_eq_iff (st : Status) (i : Instr) (s : State) :
    answerStatus i s = st ↔ RaisesStatus st i s := by
  refine ⟨?_, answerStatus_of_raisesStatus⟩
  rintro rfl
  obtain ⟨st, raises⟩ := exists_raisesStatus i s
  rwa [answerStatus_of_raisesStatus raises]

/-! ### The statements on responses -/

/-- Settles O14, with the status and the data of `exec_answers`. -/
theorem responseWordCarriesStatusAndData : Obligations.ResponseWordCarriesStatusAndData := by
  intro i s
  obtain ⟨t, hexec, answered⟩ := exec_answers i s
  refine ⟨t, _, _, hexec, answered, responseWord_toNat _ _, responseStatus_responseWord _ _,
    responseData_responseWord _ _, ?_, ?_, ?_, answerData_of_ne_ok⟩
  · rintro ok n rfl
    rw [answerData_of_ok ok]
    exact quotient_toNat n s
  · rintro ok n rfl
    rw [answerData_of_ok ok]
    exact remainder_eq n s
  · rintro d rfl
    exact answerData_build d s

/-- Settles O15: the answer's status is that of its row of the table (`answerStatus_eq_iff`). -/
theorem statusCodeOfEachCommand : Obligations.StatusCodeOfEachCommand := by
  refine ⟨⟨rfl, rfl, rfl, rfl⟩, fun i s => ?_⟩
  obtain ⟨t, hexec, answered⟩ := exec_answers i s
  exact ⟨t, _, _, hexec, answered, answerStatus_eq_iff .ok i s,
    answerStatus_eq_iff .zeroDivisor i s, answerStatus_eq_iff .noDivisor i s,
    answerStatus_eq_iff .illegalOp i s⟩

/-! ### What a command line's number becomes -/

/-- A command whose operand is a literal in range is the word `OP * 2^64 + v` (R35, R42). -/
theorem encode_eq_ofNat {i : Instr} {op v : Nat} (hop : (opcodeOf i).toNat = op)
    (himm : i.operand = BitVec.ofNat 64 v) (hv : v < 2 ^ 64) :
    encode i = BitVec.ofNat 66 (op * 2 ^ 64 + v) := by
  have operandEq : i.operand.toNat = v := by
    rw [himm, BitVec.toNat_ofNat, Nat.mod_eq_of_lt hv]
  rw [← hop, ← operandEq, ← encode_toNat, BitVec.ofNat_toNat, BitVec.setWidth_eq]

/-- The three mnemonics of commands, with their opcodes (R37, R42). -/
def commandRows : List (List Char × Nat) :=
  [(['B', 'U', 'I', 'L', 'D'], 1), (['D', 'I', 'V'], 2), (['R', 'E', 'D'], 3)]

/-- A mnemonic of a command makes the command of its opcode with the literal as operand. -/
theorem assembleCommand_of_row {row : List Char × Nat} (h : row ∈ commandRows) :
    ∃ mk : Word → Instr, (∀ d, (opcodeOf (mk d)).toNat = row.2 ∧ (mk d).operand = d) ∧
      ∀ v, assembleCommand row.1 v =
        if literalInRange v then .word (encode (mk (BitVec.ofNat 64 v)))
        else .refused .outOfRange := by
  simp only [commandRows, List.mem_cons, List.not_mem_nil, or_false] at h
  obtain rfl | rfl | rfl := h
  · exact ⟨.build, fun _ => ⟨rfl, rfl⟩, fun _ => rfl⟩
  · exact ⟨.div, fun _ => ⟨rfl, rfl⟩, fun _ => rfl⟩
  · exact ⟨.red, fun _ => ⟨rfl, rfl⟩, fun _ => rfl⟩

/-- Below `2^64` the literal stands under the opcode, and from there on it is refused (R42). -/
theorem assembleCommand_row_range {row : List Char × Nat} (h : row ∈ commandRows) (v : Nat) :
    (v < 2 ^ 64 → assembleCommand row.1 v = .word (BitVec.ofNat 66 (row.2 * 2 ^ 64 + v))) ∧
      (2 ^ 64 ≤ v → assembleCommand row.1 v = .refused .outOfRange) := by
  obtain ⟨mk, fields, assembles⟩ := assembleCommand_of_row h
  obtain ⟨hop, himm⟩ := fields (BitVec.ofNat 64 v)
  rw [assembles, literalInRange]
  constructor
  · intro hv
    rw [if_pos (decide_eq_true hv), encode_eq_ofNat hop himm hv]
  · intro hv
    rw [if_neg (ne_true_of_eq_false (decide_eq_false (Nat.not_lt.2 hv)))]

/-- `.cmd` takes its literal as the whole word: below `2^66`, and from there on it is refused
(R42). -/
theorem assembleCommand_cmd_range (v : Nat) :
    (v < 2 ^ 66 → assembleCommand ['.', 'C', 'M', 'D'] v = .word (BitVec.ofNat 66 v)) ∧
      (2 ^ 66 ≤ v → assembleCommand ['.', 'C', 'M', 'D'] v = .refused .outOfRange) := by
  have assembles : assembleCommand ['.', 'C', 'M', 'D'] v =
      match commandWord v with
      | .ok w => .word w
      | .error _ => .refused .outOfRange := rfl
  rw [assembles]
  constructor
  · intro hv
    rw [commandWord_of_lt hv]
  · intro hv
    rw [commandWord_of_ge hv]

/-! ### The lines of a mnemonic -/

/-- A literal with a sign before it stands inside a word too. -/
theorem inWord_negative {text : List Char} (h : ∀ c ∈ text, InWord c) :
    ∀ c ∈ '-' :: text, InWord c :=
  List.forall_mem_cons.2 ⟨⟨rfl, by decide⟩, h⟩

section Line

variable {mnemonic tail : List Char}
  (known : knownMnemonic (mnemonic.map Char.toUpper) = true) (ends : EndsLine tail)

include known

theorem words_of_mnemonic_gap (k : Nat) (r : List Char) :
    wordsFrom [] (withoutComment (mnemonic ++ (gap k ++ r)))
      = mnemonic :: wordsFrom [] (withoutComment r) := by
  obtain ⟨nonempty, inWord⟩ := inWord_of_knownMnemonic known
  exact words_of_gap nonempty inWord k r

include ends

/-- The words of a line of one operand. -/
theorem words_of_operand {operand : List Char} (nonempty : operand ≠ [])
    (inWord : ∀ c ∈ operand, InWord c) (k : Nat) :
    wordsFrom [] (withoutComment (mnemonic ++ gap k ++ operand ++ tail)) = [mnemonic, operand] := by
  rw [List.append_assoc, List.append_assoc, words_of_mnemonic_gap known,
    words_of_one nonempty inWord ends]

theorem assembleLine_literal {v : Nat} {text : List Char} (spells : SpellsLiteral v text)
    (k : Nat) : assembleLine (mnemonic ++ gap k ++ text ++ tail)
      = assembleCommand (mnemonic.map Char.toUpper) v := by
  obtain ⟨nonempty, inWord⟩ := inWord_of_spells spells
  obtain ⟨-, assembles, -, -⟩ :=
    assembleLine_of_words (words_of_operand known ends nonempty inWord k) known
  exact assembles text v rfl (literal_of_spells spells)

theorem assembleLine_negative {v : Nat} {text : List Char} (spells : SpellsLiteral v text)
    (k : Nat) :
    assembleLine (mnemonic ++ gap k ++ '-' :: text ++ tail) = .refused .badLiteral := by
  obtain ⟨-, inWord⟩ := inWord_of_spells spells
  have words := words_of_operand known ends (List.cons_ne_nil '-' text) (inWord_negative inWord) k
  obtain ⟨-, -, refuses, -⟩ := assembleLine_of_words words known
  exact refuses _ rfl (literal_negative text)

theorem assembleLine_no_operand :
    assembleLine (mnemonic ++ tail) = .refused .missingOperand := by
  obtain ⟨nonempty, inWord⟩ := inWord_of_knownMnemonic known
  obtain ⟨refuses, -, -, -⟩ := assembleLine_of_words (words_of_one nonempty inWord ends) known
  exact refuses rfl

omit ends

theorem assembleLine_extra_operand {v : Nat} {text : List Char} (spells : SpellsLiteral v text)
    (k j : Nat) {x : Char} (hx : InWord x) (more : List Char) :
    assembleLine (mnemonic ++ gap k ++ text ++ gap j ++ x :: more) = .refused .extraOperand := by
  obtain ⟨nonempty, inWord⟩ := inWord_of_spells spells
  obtain ⟨extra, others, hextra⟩ := List.exists_cons_of_ne_nil (words_ne_nil hx more)
  have words : wordsFrom [] (withoutComment (mnemonic ++ gap k ++ text ++ gap j ++ x :: more))
      = mnemonic :: text :: extra :: others := by
    simp only [List.append_assoc]
    rw [words_of_mnemonic_gap known, words_of_gap nonempty inWord, hextra]
  obtain ⟨-, -, -, refuses⟩ := assembleLine_of_words words known
  exact refuses _ _ _ rfl

end Line

/-! ### The statement on the assembler -/

theorem knownMnemonic_of_row {row : List Char × Nat} (h : row ∈ commandRows) :
    knownMnemonic row.1 = true := by
  revert row
  decide

/-- Settles O51: a line is its words, so a line of one literal is the command of its value
(`assembleLine_literal`), to which the two ranges apply; the other lines are refused by their
words. -/
theorem assemblerRefusesLiteralsOutOfRange : Obligations.AssemblerRefusesLiteralsOutOfRange := by
  intro mnemonic text tail v k spells ends
  refine ⟨fun row hrow hname => ?_, fun hname => ?_, fun hname => ?_⟩
  · have known : knownMnemonic (mnemonic.map Char.toUpper) = true := by
      rw [hname, knownMnemonic_of_row hrow]
    rw [assembleLine_literal known ends spells, hname]
    exact assembleCommand_row_range hrow v
  · have known : knownMnemonic (mnemonic.map Char.toUpper) = true := by
      rw [hname]
      rfl
    rw [assembleLine_literal known ends spells, hname]
    exact assembleCommand_cmd_range v
  · have known : knownMnemonic (mnemonic.map Char.toUpper) = true := decide_eq_true hname
    refine ⟨assembleLine_negative known ends spells k, assembleLine_no_operand known ends,
      fun j x more notSpace notTab notComment => ?_⟩
    have hx : InWord x := ⟨by simp [isBlank, notSpace, notTab], notComment⟩
    exact assembleLine_extra_operand known spells k j hx more

end Sys2Proof.Machine
end

section
/-! PROOFS of the statements on `BUILD`: the two functions of the construction in exact arithmetic,
what `BUILD` writes, and the error term of the reciprocal it leaves
(spec/40_fast_divisor_circuit.md). -/

namespace Sys2Proof.Machine

open Sys2Proof.Safety

/-! ### The exponent of the scale, as a number (R46, R48) -/

section ShiftNumber

variable {d : Nat}

theorem shiftNumber_of_two_le (hd : 2 ≤ d) : shiftNumber d = 64 + Nat.log2 (d - 1) :=
  if_neg (by omega)

/-- A divisor above 1 lies above one power of two and up to the next: the two of R48. -/
theorem log2_pred_eq_iff (hd : 2 ≤ d) {k : Nat} :
    Nat.log2 (d - 1) = k ↔ 2 ^ k + 1 ≤ d ∧ d ≤ 2 ^ (k + 1) := by
  rw [Nat.log2_eq_iff (by omega)]
  omega

/-- `ceil(log2 d) = msb(d - 1) + 1`: the two numbers have the same upper bounds (R46). -/
theorem clog_eq_log2_pred_succ (hd : 2 ≤ d) : Nat.clog 2 d = Nat.log2 (d - 1) + 1 := by
  refine eq_of_forall_ge_iff fun k => ?_
  rw [Nat.clog_le_iff_le_pow Nat.one_lt_two, Nat.succ_le_iff, Nat.log2_lt (by omega)]
  omega

/-- The scale is `2^63` times the power of two that the divisor lies up to (R48). -/
theorem two_pow_shiftNumber (hd : 2 ≤ d) :
    2 ^ shiftNumber d = 2 ^ 63 * 2 ^ (Nat.log2 (d - 1) + 1) := by
  rw [shiftNumber_of_two_le hd, ← pow_add]
  congr 1
  omega

theorem two_pow_64_le_two_pow_shiftNumber (hd : 2 ≤ d) : 2 ^ 64 ≤ 2 ^ shiftNumber d :=
  Nat.pow_le_pow_right Nat.two_pos (by rw [shiftNumber_of_two_le hd]; exact Nat.le_add_right ..)

end ShiftNumber

/-! ### The reciprocal, as a number: a ceiling (R47, R48) -/

section MultNumber

variable {d : Nat}

/-- The reciprocal is the least `q` with `2^s <= q * d` (R47). -/
theorem multNumber_le_iff (pos : 1 ≤ d) (q : Nat) :
    multNumber d ≤ q ↔ 2 ^ shiftNumber d ≤ q * d := by
  rw [multNumber, ← Nat.ceilDiv_eq_add_pred_div, ceilDiv_le_iff_le_mul pos, Nat.mul_comm]

theorem two_pow_le_multNumber_mul (pos : 1 ≤ d) : 2 ^ shiftNumber d ≤ multNumber d * d :=
  (multNumber_le_iff pos _).1 le_rfl

/-- Rounding up adds less than one divisor (R51). -/
theorem multNumber_mul_lt (pos : 1 ≤ d) : multNumber d * d < 2 ^ shiftNumber d + d := by
  have floor : multNumber d * d ≤ 2 ^ shiftNumber d + d - 1 := Nat.div_mul_le_self ..
  exact floor.trans_lt (Nat.sub_one_lt (Nat.add_pos_right _ pos).ne')

/-- For `d >= 2` the reciprocal has 64 significant bits: the divisor is at most `2^(k+1)`, and the
scale is `2^63` times that (R48). -/
theorem two_pow_63_le_multNumber (hd : 2 ≤ d) : 2 ^ 63 ≤ multNumber d := by
  obtain ⟨-, divisorLe⟩ := (log2_pred_eq_iff hd).1 rfl
  by_contra below
  have scaleLe := (multNumber_le_iff (d := d) (by omega) (2 ^ 63 - 1)).1 (by omega)
  rw [two_pow_shiftNumber hd] at scaleLe
  omega

/-- The reciprocal is the least one exactly where the divisor is the power of two that it lies up to
(R48). -/
theorem multNumber_eq_two_pow_63_iff (hd : 2 ≤ d) :
    multNumber d = 2 ^ 63 ↔ d = 2 ^ (Nat.log2 (d - 1) + 1) := by
  obtain ⟨-, divisorLe⟩ := (log2_pred_eq_iff hd).1 rfl
  rw [← (two_pow_63_le_multNumber hd).ge_iff_eq', multNumber_le_iff (by omega),
    two_pow_shiftNumber hd]
  omega

/-- The scale is a multiple of the divisor exactly where the divisor is a power of two (R51). -/
theorem dvd_two_pow_shiftNumber_iff (lt : d < 2 ^ 64) :
    d ∣ 2 ^ shiftNumber d ↔ ∃ j, d = 2 ^ j := by
  rw [Nat.dvd_prime_pow Nat.prime_two]
  refine ⟨fun ⟨j, _, hj⟩ => ⟨j, hj⟩, fun ⟨j, hj⟩ => ⟨j, ?_, hj⟩⟩
  rcases Nat.eq_zero_or_pos j with rfl | pos
  · exact Nat.zero_le _
  · have two_le : 2 ≤ d := hj ▸ Nat.le_self_pow pos.ne' 2
    have j_lt : j < 64 := (Nat.pow_lt_pow_iff_right Nat.one_lt_two).1 (hj ▸ lt)
    rw [shiftNumber_of_two_le two_le]
    omega

end MultNumber

/-! ### The same of the registers' words -/

theorem ne_zero_of_two_le {d : Word} (hd : 2 ≤ d.toNat) : d ≠ 0 := by
  rintro rfl
  exact absurd hd (by decide)

/-- The highest set bit and the number of zeros above it make up the word. -/
theorem msb_eq_sub_clz {v : Word} (hv : v ≠ 0) : msb v = 63 - (BitVec.clz v).toNat := by
  have clz_lt : (BitVec.clz v).toNat < 64 := BitVec.clz_lt_iff_ne_zero.2 hv
  have hv' : v.toNat ≠ 0 := fun h => hv (BitVec.eq_of_toNat_eq h)
  have succ : 63 - (BitVec.clz v).toNat + 1 = 64 - (BitVec.clz v).toNat := by omega
  rw [msb, Nat.log2_eq_iff hv', succ]
  exact ⟨BitVec.two_pow_sub_clz_le_toNat_of_ne_zero (by decide) hv, BitVec.toNat_lt_two_pow_sub_clz⟩

theorem getLsbD_63_eq (v : Word) : v.getLsbD 63 = decide (2 ^ 63 ≤ v.toNat) :=
  v.msb_eq_getLsbD_last.symm.trans v.msb_eq_decide

/-- The quotient of the construction before any narrowing is the reciprocal (R47). -/
theorem floorDiv128_numeratorOf_toNat {d : Word} (hd : d ≠ 0) :
    (floorDiv128 (numeratorOf d) (zext128 d)).toNat = multNumber d.toNat := by
  rw [floorDiv128_toNat, numeratorOf_toNat hd, zext128_toNat, shiftOf_toNat_eq_shiftNumber hd,
    multNumber]

/-- The scale fits the numerator's 128 bits with room for one more divisor (R49). -/
theorem two_pow_shiftOf_le (d : Word) : 2 ^ (shiftOf d).toNat ≤ 2 ^ 127 :=
  Nat.pow_le_pow_right Nat.two_pos (Nat.le_of_lt_succ (shiftOf d).isLt)

/-- Every divisor but 1 has a multiplier with bit 63 set (R48, R50). -/
theorem getLsbD_63_multOf {d : Word} (hd : 2 ≤ d.toNat) : (multOf d).getLsbD 63 = true := by
  rw [getLsbD_63_eq, multOf_toNat_eq_multNumber (ne_zero_of_two_le hd)]
  exact decide_eq_true (two_pow_63_le_multNumber hd)

/-! ### What `DIV` and `RED` answer with a given result -/

/-- The one answer of a valid `DIV` or `RED` carries its result and no other data. -/
theorem onlyAnswers_reading_iff {i : Instr} (reading : ∃ n, i = .div n ∨ i = .red n) {s : State}
    (hv : s.valid = true) (data : Word) : OnlyAnswers i s .ok data ↔ readingResult i s = data := by
  rw [OnlyAnswers, exec_reading_of_valid reading hv]
  refine ⟨fun h => ?_, fun h => by rw [h]; rfl⟩
  have responsesEq := congrArg State.responses (Host.Outcome.next.inj h)
  have wordsEq := List.singleton_inj.1 (List.append_cancel_left responsesEq)
  simpa using congrArg responseData wordsEq

/-- With scale `2^0` the quotient is the product, cut to 64 bits (R50). -/
theorem quotient_of_shift_zero {s : State} (hshift : s.shift = 0) (n : Word) :
    quotient n s = n * s.mult := by
  apply BitVec.eq_of_toNat_eq
  rw [quotient_toNat, hshift, BitVec.toNat_mul]
  exact congrArg (· % 2 ^ 64) (Nat.div_one _)

/-! ### The error term (R51) -/

/-- The error term is a natural number below the divisor: what rounding the reciprocal up added. -/
theorem exists_errorTerm {s : State} (h : HoldsInstance s) :
    ∃ e : Nat, errorTerm s = e ∧ e < s.m.toNat ∧
      s.mult.toNat * s.m.toNat = 2 ^ s.shift.toNat + e := by
  obtain ⟨pos, hshift, hmult⟩ := h
  have lower := two_pow_le_multNumber_mul pos
  have upper := multNumber_mul_lt pos
  rw [← hshift, ← hmult] at lower upper
  obtain ⟨e, he⟩ := Nat.exists_eq_add_of_le lower
  refine ⟨e, ?_, by omega, he⟩
  rw [errorTerm, ← Nat.cast_mul, he]
  push_cast
  ring

section ErrorTerm

variable {q m p e : Nat}

/-- What rounding up to a multiple of `m` adds is the residue of `-p`, and `-p` is `p * (m - 1)`
modulo `m`. -/
theorem rounding_residue (he : e < m) (round : q * m = p + e) : p * (m - 1) % m = e := by
  have pred : p * (m - 1) + p = p * m := by
    rw [← Nat.mul_succ, Nat.succ_eq_add_one, Nat.sub_add_cancel (by omega)]
  calc p * (m - 1) % m = (p * (m - 1) + q * m) % m := (Nat.add_mul_mod_self_right ..).symm
    _ = (e + p * m) % m := by congr 1; omega
    _ = e := by rw [Nat.add_mul_mod_self_right, Nat.mod_eq_of_lt he]

theorem rounding_eq_zero_iff (he : e < m) (round : q * m = p + e) : e = 0 ↔ m ∣ p := by
  refine ⟨?_, fun dvd => ?_⟩
  · rintro rfl
    exact ⟨q, by rw [Nat.mul_comm, round, Nat.add_zero]⟩
  · exact Nat.eq_zero_of_dvd_of_lt ((Nat.dvd_add_right dvd).1 ⟨q, by rw [← round, Nat.mul_comm]⟩) he

theorem rounding_quotient (hm : 0 < m) (hp : 0 < p) (round : q * m = p + e) :
    (q : Rat) / p = 1 / m + e / (m * p) := by
  have round' : (q : Rat) * m = p + e := by exact_mod_cast round
  field_simp
  linear_combination round'

end ErrorTerm

/-! ### The statements on `BUILD` -/

/-- Settles O16: the next state is `constructInstance` with the answer added. -/
theorem buildWritesTheInstance : Obligations.BuildWritesTheInstance := by
  intro d s hd
  exact ⟨_, exec_build_of_ne hd s, rfl, rfl, shiftOf_toNat_eq_shiftNumber hd,
    multOf_toNat_eq_multNumber hd, respond_answered rfl rfl .ok 0, rfl⟩

/-- Settles O18: `log2_pred_eq_iff` is the table, and the two other forms are other names of
`msb(d - 1)`. -/
theorem shiftIsSixtyFourPlusLogOfDivisor : Obligations.ShiftIsSixtyFourPlusLogOfDivisor := by
  have formula (d : Word) (hd : 2 ≤ d.toNat) :
      (shiftOf d).toNat = 64 + Nat.log2 (d.toNat - 1) := by
    rw [shiftOf_toNat_eq_shiftNumber (ne_zero_of_two_le hd), shiftNumber_of_two_le hd]
  refine ⟨rfl, fun d hd => ⟨formula d hd, ?_, ?_⟩, fun d k _ lower upper => ?_⟩
  · have not_one : d ≠ 1 := by
      rintro rfl
      exact absurd hd (by decide)
    rw [shiftOf_toNat not_one, msb_eq_sub_clz fun h => not_one (sub_eq_zero.1 h)]
  · rw [formula d hd, clog_eq_log2_pred_succ hd]
    omega
  · have hd : 2 ≤ d.toNat := (Nat.succ_le_succ Nat.one_le_two_pow).trans lower
    rw [formula d hd, (log2_pred_eq_iff hd).2 ⟨lower, upper⟩]

/-- Settles O19: the words are the exact numbers, and the reciprocal is a ceiling. -/
theorem multiplierIsTheReciprocalRoundedUp : Obligations.MultiplierIsTheReciprocalRoundedUp := by
  intro d hd
  rw [multOf_toNat_eq_multNumber hd]
  refine ⟨numeratorOf_toNat hd, ?_, fun q => ?_⟩
  · rw [shiftOf_toNat_eq_shiftNumber hd, multNumber]
  · rw [shiftOf_toNat_eq_shiftNumber hd, multNumber_le_iff (toNat_pos_of_ne hd)]

/-- Settles O20: for `d >= 2` the exponent is `64 + k` in 7 bits, so `k <= 63`, and the reciprocal
has its bounds as a number. -/
theorem constructionResultsFitTheirRegisters :
    Obligations.ConstructionResultsFitTheirRegisters := by
  refine ⟨⟨rfl, rfl⟩, fun d hd => ?_, rfl⟩
  have d_ne := ne_zero_of_two_le hd
  obtain ⟨divisorGt, divisorLe⟩ := (log2_pred_eq_iff hd).1 rfl
  have shiftEq := (shiftOf_toNat_eq_shiftNumber d_ne).trans (shiftNumber_of_two_le hd)
  have shiftLt := (shiftOf d).isLt
  have multEq := multOf_toNat_eq_multNumber d_ne
  have multLt := multNumber_lt (toNat_pos_of_ne d_ne) d.isLt
  rw [floorDiv128_numeratorOf_toNat d_ne, multEq]
  exact ⟨_, by omega, rfl, divisorGt, divisorLe, by omega, shiftEq, by omega,
    two_pow_63_le_multNumber hd, Nat.le_sub_one_of_lt multLt, rfl, getLsbD_63_multOf hd,
    multNumber_eq_two_pow_63_iff hd⟩

/-- Settles O21, from the largest exponent and the largest divisor. -/
theorem numeratorFitsInOneHundredTwentyEightBits :
    Obligations.NumeratorFitsInOneHundredTwentyEightBits := by
  refine ⟨fun d hd => ⟨numeratorOf_toNat hd, ?_, oneShiftLeft128_toNat _, two_pow_shiftOf_le d⟩,
    rfl, rfl, by decide, fun d hd => ?_⟩
  · have scaleLe := two_pow_shiftOf_le d
    have divisorLt := d.isLt
    rw [numeratorOf_toNat hd]
    omega
  · rw [shiftOf_toNat_eq_shiftNumber (ne_zero_of_two_le hd)]
    exact two_pow_64_le_two_pow_shiftNumber hd

/-- Settles O22: with scale `2^0` the quotient of 1 is the multiplier itself, and every divisor but
1 has a multiplier with bit 63 set. -/
theorem divisorOneHasUnitReciprocal : Obligations.DivisorOneHasUnitReciprocal := by
  refine ⟨rfl, rfl, fun s hv hm hshift => ⟨fun answers => ?_, fun hmult n => ?_⟩, fun d hd => ?_⟩
  · obtain ⟨divOne, -⟩ := answers 1
    have quotientOne : quotient 1 s = 1 := (onlyAnswers_reading_iff ⟨1, .inl rfl⟩ hv 1).1 divOne
    rwa [quotient_of_shift_zero hshift, one_mul] at quotientOne
  · have quotientSelf : quotient n s = n := by
      rw [quotient_of_shift_zero hshift, hmult]
      exact mul_one n
    have remainderZero : remainder n s = 0 := by
      rw [remainder_eq, quotientSelf, hm]
      exact sub_eq_zero.2 (mul_one n).symm
    exact ⟨(onlyAnswers_reading_iff ⟨n, .inl rfl⟩ hv n).2 quotientSelf,
      (onlyAnswers_reading_iff ⟨n, .inr rfl⟩ hv 0).2 remainderZero⟩
  · refine ⟨fun bitClear => ?_, by rintro rfl; rfl⟩
    by_contra not_one
    have toNat_ne_one : d.toNat ≠ 1 := fun h => not_one (BitVec.eq_of_toNat_eq h)
    have two_le : 2 ≤ d.toNat := (toNat_pos_of_ne hd).lt_of_ne' toNat_ne_one
    exact absurd (bitClear.symm.trans (getLsbD_63_multOf two_le)) Bool.false_ne_true

/-- Settles O23: with `e` the natural number of `exists_errorTerm`, each part is a fact about
rounding `2^SHIFT` up to a multiple of `M`. -/
theorem errorTermOfTheReciprocal : Obligations.ErrorTermOfTheReciprocal := by
  intro s h
  obtain ⟨e, errorEq, he, round⟩ := exists_errorTerm h
  obtain ⟨pos, hshift, -⟩ := h
  have scalePos : 0 < 2 ^ s.shift.toNat := Nat.two_pow_pos _
  have quotientEq := rounding_quotient pos scalePos round
  push_cast at quotientEq
  have mPos : (0 : Rat) < s.m.toNat := by exact_mod_cast pos
  have excessLt : (e : Rat) / (s.m.toNat * 2 ^ s.shift.toNat) < 1 / 2 ^ s.shift.toNat := by
    rw [← div_div]
    exact div_lt_div_of_pos_right ((div_lt_one mPos).2 (by exact_mod_cast he)) (by positivity)
  rw [errorEq, quotientEq]
  refine ⟨⟨by omega, by omega⟩, by rw [rounding_residue he round], ?_, by rw [Int.cast_natCast],
    le_add_of_nonneg_right (by positivity), add_lt_add_right excessLt _⟩
  rw [Nat.cast_eq_zero, rounding_eq_zero_iff he round, hshift, dvd_two_pow_shiftNumber_iff s.m.isLt]

/-- Settles O24, by whether the operand is 0: the value registers are those of the operand, or they
are unspecified. -/
theorem buildForgetsTheOldInstance : Obligations.BuildForgetsTheOldInstance := by
  intro d s s'
  by_cases hd : d = 0
  · subst hd
    exact ⟨_, _, _, exec_build_zero s, exec_build_zero s', respond_answered rfl rfl .zeroDivisor 0,
      respond_answered rfl rfl .zeroDivisor 0, fun h => absurd rfl h, fun _ => ⟨rfl, rfl⟩⟩
  · exact ⟨_, _, _, exec_build_of_ne hd s, exec_build_of_ne hd s', respond_answered rfl rfl .ok 0,
      respond_answered rfl rfl .ok 0, fun _ => ⟨rfl, rfl, rfl, rfl⟩, fun h => absurd h hd⟩

end Sys2Proof.Machine
end

section
/-! PROOFS of the statements on `DIV`: the truncated product of the reciprocal as a number, the true
quotient or one more, where it is which, and the divisors for which it is never one more
(spec/41_fixed_point_reciprocal_multiplier.md). -/

namespace Sys2Proof.Safety

/-! ### What `HoldsInstance` says of each register (R15) -/

section HoldsInstance

variable {s : Machine.State}

theorem HoldsInstance.m_pos (h : HoldsInstance s) : 1 ≤ s.m.toNat := h.1

theorem HoldsInstance.shift_eq (h : HoldsInstance s) : s.shift.toNat = shiftNumber s.m.toNat :=
  h.2.1

theorem HoldsInstance.mult_eq (h : HoldsInstance s) : s.mult.toNat = multNumber s.m.toNat :=
  h.2.2

end HoldsInstance

end Sys2Proof.Safety

namespace Sys2Proof.Machine

open Sys2Proof.Safety

/-! ### Multiplying by a reciprocal that is rounded up (R57)

`q` is the reciprocal of `m` at the scale `p`, and `e` is what rounding it up added. -/

section RoundedReciprocal

variable {n m q p e : Nat}

/-- The true quotient, and what the remainder and the error together add to it: `n * q * m` is
`n * p + n * e`, and `n` is `m * (n / m) + n % m`. -/
theorem mul_div_eq_div_add (hm : 0 < m) (hp : 0 < p) (round : q * m = p + e) :
    n * q / p = n / m + (n % m * p + n * e) / (m * p) := by
  have split : n * q * m = n % m * p + n * e + m * p * (n / m) := by
    calc n * q * m = n * p + n * e := by rw [Nat.mul_assoc, round, Nat.mul_add]
      _ = (n % m + m * (n / m)) * p + n * e := by rw [Nat.mod_add_div]
      _ = n % m * p + n * e + m * p * (n / m) := by ring
  rw [← Nat.mul_div_mul_right _ _ hm, split, Nat.mul_comm p m,
    Nat.add_mul_div_left _ _ (Nat.mul_pos hm hp), Nat.add_comm]

/-- What the remainder lacks of the divisor, and the remainder, make up the divisor. -/
theorem remainder_gap_mul_add (hm : 0 < m) : (m - n % m) * p + n % m * p = m * p := by
  rw [← Nat.add_mul, Nat.sub_add_cancel (Nat.mod_lt n hm).le]

theorem mul_div_eq_div (hm : 0 < m) (hp : 0 < p) (round : q * m = p + e)
    (exact : n * e < (m - n % m) * p) : n * q / p = n / m := by
  have gap := remainder_gap_mul_add (n := n) (p := p) hm
  have excess : (n % m * p + n * e) / (m * p) = 0 := Nat.div_eq_of_lt (by omega)
  rw [mul_div_eq_div_add hm hp round, excess, Nat.add_zero]

/-- The excess is no more than one, since the remainder is less than one divisor and the error less
than two scales. -/
theorem mul_div_eq_div_add_one (hm : 0 < m) (hp : 0 < p) (round : q * m = p + e)
    (small : n * e < 2 * p) (inexact : (m - n % m) * p ≤ n * e) : n * q / p = n / m + 1 := by
  have gap := remainder_gap_mul_add (n := n) (p := p) hm
  have one_le : p ≤ (m - n % m) * p :=
    Nat.le_mul_of_pos_left p (Nat.sub_pos_of_lt (Nat.mod_lt n hm))
  have scale_le : p ≤ m * p := Nat.le_mul_of_pos_left p hm
  have excess : (n % m * p + n * e) / (m * p) = 1 := Nat.div_eq_of_lt_le (by omega) (by omega)
  rw [mul_div_eq_div_add hm hp round, excess]

/-- The error is less than two scales, so it makes up for what the remainder lacks only where that
is one. -/
theorem remainder_gap_le_iff (hm : 0 < m) (small : n * e < 2 * p) :
    (m - n % m) * p ≤ n * e ↔ n % m = m - 1 ∧ p ≤ n * e := by
  have rem_lt := Nat.mod_lt n hm
  refine ⟨fun gapLe => ?_, fun ⟨last, scaleLe⟩ => ?_⟩
  · have gap_one : m - n % m = 1 := by
      by_contra gap_ne
      have two_le : 2 * p ≤ (m - n % m) * p := Nat.mul_le_mul_right p (by omega)
      omega
    rw [gap_one, Nat.one_mul] at gapLe
    exact ⟨by omega, gapLe⟩
  · rwa [last, Nat.sub_sub_self hm, Nat.one_mul]

end RoundedReciprocal

/-! ### The error term of a divisor, as a natural number (R51) -/

/-- What rounding the reciprocal of `d` up adds: `mult_of(d) * d - 2^shift_of(d)`, for `d >= 1`. -/
def errorNumber (d : Nat) : Nat := multNumber d * d - 2 ^ shiftNumber d

section ErrorNumber

variable {d : Nat}

theorem multNumber_mul_eq (pos : 1 ≤ d) : multNumber d * d = 2 ^ shiftNumber d + errorNumber d :=
  (Nat.add_sub_of_le (two_pow_le_multNumber_mul pos)).symm

theorem errorNumber_lt (pos : 1 ≤ d) : errorNumber d < d := by
  have upper := multNumber_mul_lt pos
  rw [multNumber_mul_eq pos] at upper
  omega

/-- The scale is more than `2^63` error terms: it is `2^63` times a power of two that the divisor
does not exceed (R58). -/
theorem two_pow_63_mul_errorNumber_lt (pos : 1 ≤ d) :
    2 ^ 63 * errorNumber d < 2 ^ shiftNumber d := by
  have errorLt := errorNumber_lt pos
  rcases pos.eq_or_lt with rfl | two_le
  · decide
  · obtain ⟨-, divisorLe⟩ := (log2_pred_eq_iff two_le).1 rfl
    rw [two_pow_shiftNumber two_le]
    omega

theorem mul_errorNumber_le (d : Nat) (n : Word) :
    n.toNat * errorNumber d ≤ (2 ^ 64 - 1) * errorNumber d :=
  Nat.mul_le_mul_right _ (Nat.le_sub_one_of_lt n.isLt)

/-- No dividend takes the error to two scales. -/
theorem mul_errorNumber_lt (pos : 1 ≤ d) (n : Word) :
    n.toNat * errorNumber d < 2 * 2 ^ shiftNumber d := by
  have scaleGt := two_pow_63_mul_errorNumber_lt pos
  have errorLe := mul_errorNumber_le d n
  omega

/-- The reciprocal is exact at the powers of two (R51, R58). -/
theorem errorNumber_two_pow {j : Nat} (lt : 2 ^ j < 2 ^ 64) : errorNumber (2 ^ j) = 0 :=
  (rounding_eq_zero_iff (errorNumber_lt Nat.one_le_two_pow)
    (multNumber_mul_eq Nat.one_le_two_pow)).2 ((dvd_two_pow_shiftNumber_iff lt).2 ⟨j, rfl⟩)

end ErrorNumber

/-! ### The exactness domain (R57) -/

section Instance

variable {s : State}

/-- The error term is the one of the divisor. -/
theorem errorTerm_eq_errorNumber (h : HoldsInstance s) : errorTerm s = errorNumber s.m.toNat := by
  have round : (multNumber s.m.toNat : Int) * s.m.toNat
      = 2 ^ shiftNumber s.m.toNat + errorNumber s.m.toNat := by
    exact_mod_cast multNumber_mul_eq h.m_pos
  rw [errorTerm, h.shift_eq, h.mult_eq, round]
  ring

theorem inExactnessDomain_iff (h : HoldsInstance s) (n : Word) :
    InExactnessDomain n s ↔ n.toNat * errorNumber s.m.toNat
      < (s.m.toNat - n.toNat % s.m.toNat) * 2 ^ shiftNumber s.m.toNat := by
  have gap : (s.m.toNat : Int) - (n.toNat % s.m.toNat : Nat)
      = (s.m.toNat - n.toNat % s.m.toNat : Nat) :=
    (Nat.cast_sub (Nat.mod_lt _ h.m_pos).le).symm
  rw [InExactnessDomain, errorTerm_eq_errorNumber h, h.shift_eq, gap]
  exact_mod_cast Iff.rfl

/-- Outside the domain the remainder is the largest there is, and the error has reached one
scale. -/
theorem not_inExactnessDomain_iff (h : HoldsInstance s) (n : Word) :
    ¬ InExactnessDomain n s ↔ n.toNat % s.m.toNat = s.m.toNat - 1 ∧
      2 ^ shiftNumber s.m.toNat ≤ n.toNat * errorNumber s.m.toNat := by
  rw [inExactnessDomain_iff h, not_lt, remainder_gap_le_iff h.m_pos (mul_errorNumber_lt h.m_pos n)]

theorem inExactnessDomain_of_mul_errorNumber_lt (h : HoldsInstance s) {n : Word}
    (lt : n.toNat * errorNumber s.m.toNat < 2 ^ shiftNumber s.m.toNat) : InExactnessDomain n s := by
  by_contra outside
  obtain ⟨-, scaleLe⟩ := (not_inExactnessDomain_iff h n).1 outside
  omega

theorem inExactnessDomain_of_lt_two_pow_63 (h : HoldsInstance s) {n : Word}
    (lt : n.toNat < 2 ^ 63) : InExactnessDomain n s :=
  inExactnessDomain_of_mul_errorNumber_lt h
    ((Nat.mul_le_mul_right _ lt.le).trans_lt (two_pow_63_mul_errorNumber_lt h.m_pos))

theorem inExactnessDomain_of_errorNumber_le (h : HoldsInstance s) (n : Word)
    (le : errorNumber s.m.toNat * 2 ^ 64 ≤ 2 ^ shiftNumber s.m.toNat) : InExactnessDomain n s := by
  have errorLe := mul_errorNumber_le s.m.toNat n
  have scalePos : 0 < 2 ^ shiftNumber s.m.toNat := Nat.two_pow_pos _
  exact inExactnessDomain_of_mul_errorNumber_lt h (by omega)

theorem inExactnessDomain_of_two_pow (h : HoldsInstance s) (n : Word) {j : Nat}
    (hj : s.m.toNat = 2 ^ j) : InExactnessDomain n s := by
  have noError : errorNumber s.m.toNat = 0 := by rw [hj, errorNumber_two_pow (hj ▸ s.m.isLt)]
  exact inExactnessDomain_of_errorNumber_le h n (by rw [noError, Nat.zero_mul]; exact Nat.zero_le _)

/-- Among the dividends with the largest remainder the error grows with the dividend, so that the
last of them decides for all (R57). -/
theorem exists_not_inExactnessDomain_iff (h : HoldsInstance s) {nmax : Word}
    (last : nmax.toNat % s.m.toNat = s.m.toNat - 1)
    (largest : ∀ n : Word, n.toNat % s.m.toNat = s.m.toNat - 1 → n.toNat ≤ nmax.toNat) :
    (∃ n : Word, ¬ InExactnessDomain n s) ↔ ¬ InExactnessDomain nmax s := by
  refine ⟨fun ⟨n, outside⟩ => ?_, fun outside => ⟨nmax, outside⟩⟩
  obtain ⟨rem, scaleLe⟩ := (not_inExactnessDomain_iff h n).1 outside
  exact (not_inExactnessDomain_iff h nmax).2
    ⟨last, scaleLe.trans (Nat.mul_le_mul_right _ (largest n rem))⟩

/-! ### The result of `DIV` (R55, R56, R57) -/

theorem onlyAnswers_div_iff (hv : s.valid = true) (n data : Word) :
    OnlyAnswers (.div n) s .ok data ↔ quotient n s = data :=
  onlyAnswers_reading_iff ⟨n, .inl rfl⟩ hv data

/-- The shifted product fits 64 bits: for a divisor above 1 the shift is by at least 64, and
for 1 the product is the dividend (R56). -/
theorem shifted_product_lt (h : HoldsInstance s) (n : Word) :
    n.toNat * s.mult.toNat / 2 ^ s.shift.toNat < 2 ^ 64 := by
  obtain ⟨pos, hshift, hmult⟩ := h
  rcases pos.eq_or_lt with one | two_le
  · have unit : multNumber 1 = 1 ∧ shiftNumber 1 = 0 := by decide
    rw [hshift, hmult, ← one, unit.1, unit.2, Nat.mul_one, Nat.pow_zero, Nat.div_one]
    exact n.isLt
  · have scaleGe := two_pow_64_le_two_pow_shiftNumber two_le
    rw [← hshift] at scaleGe
    exact Nat.div_lt_of_lt_mul
      ((Nat.mul_lt_mul'' n.isLt s.mult.isLt).trans_le (Nat.mul_le_mul_right _ scaleGe))

/-- No bit is cut from the shifted product (R56). -/
theorem quotient_toNat_of_holdsInstance (h : HoldsInstance s) (n : Word) :
    (quotient n s).toNat
      = n.toNat * multNumber s.m.toNat / 2 ^ shiftNumber s.m.toNat := by
  rw [quotient_toNat, Nat.mod_eq_of_lt (shifted_product_lt h n), h.shift_eq, h.mult_eq]

theorem quotient_of_inExactnessDomain (h : HoldsInstance s) {n : Word}
    (inside : InExactnessDomain n s) : (quotient n s).toNat = n.toNat / s.m.toNat := by
  rw [quotient_toNat_of_holdsInstance h]
  exact mul_div_eq_div h.m_pos (Nat.two_pow_pos _) (multNumber_mul_eq h.m_pos)
    ((inExactnessDomain_iff h n).1 inside)

theorem quotient_of_not_inExactnessDomain (h : HoldsInstance s) {n : Word}
    (outside : ¬ InExactnessDomain n s) : (quotient n s).toNat = n.toNat / s.m.toNat + 1 := by
  rw [quotient_toNat_of_holdsInstance h]
  exact mul_div_eq_div_add_one h.m_pos (Nat.two_pow_pos _) (multNumber_mul_eq h.m_pos)
    (mul_errorNumber_lt h.m_pos n) (not_lt.1 (mt (inExactnessDomain_iff h n).2 outside))

/-- `DIV` gives the word `floor(n / M)` exactly in the domain. -/
theorem quotient_eq_div_iff (h : HoldsInstance s) (n : Word) :
    quotient n s = n / s.m ↔ InExactnessDomain n s := by
  rw [← BitVec.toNat_inj, BitVec.toNat_udiv]
  refine ⟨fun exact => ?_, quotient_of_inExactnessDomain h⟩
  by_contra outside
  rw [quotient_of_not_inExactnessDomain h outside] at exact
  omega

end Instance

/-! ### Which divisors have an inexact dividend (R58) -/

/-- The largest 64-bit dividend with the remainder `d - 1`: one less than the last multiple of `d`
up to `2^64`. -/
def lastDividend (d : Nat) : Nat := 2 ^ 64 / d * d - 1

section LastDividend

variable {d : Nat}

theorem lastDividend_succ (pos : 1 ≤ d) (lt : d < 2 ^ 64) :
    lastDividend d + 1 = 2 ^ 64 / d * d :=
  Nat.sub_add_cancel (Nat.mul_pos (Nat.div_pos lt.le pos) pos)

theorem lastDividend_lt (pos : 1 ≤ d) (lt : d < 2 ^ 64) : lastDividend d < 2 ^ 64 := by
  rw [← Nat.succ_le_iff, Nat.succ_eq_add_one, lastDividend_succ pos lt]
  exact Nat.div_mul_le_self ..

/-- A number has the remainder `d - 1` exactly where the next one is a multiple of `d`. -/
theorem mod_eq_pred_iff (pos : 1 ≤ d) (n : Nat) : n % d = d - 1 ↔ d ∣ n + 1 := by
  have rem_lt := Nat.mod_lt n pos
  rw [Nat.dvd_iff_mod_eq_zero, ← Nat.mod_add_mod]
  refine ⟨fun rem => by rw [rem, Nat.sub_add_cancel pos, Nat.mod_self], fun next => ?_⟩
  by_contra below
  rw [Nat.mod_eq_of_lt (by omega)] at next
  omega

theorem lastDividend_mod (pos : 1 ≤ d) (lt : d < 2 ^ 64) : lastDividend d % d = d - 1 := by
  rw [mod_eq_pred_iff pos, lastDividend_succ pos lt]
  exact Nat.dvd_mul_left ..

theorem le_lastDividend (pos : 1 ≤ d) (lt : d < 2 ^ 64) {n : Nat} (n_lt : n < 2 ^ 64)
    (rem : n % d = d - 1) : n ≤ lastDividend d := by
  have next_le : n + 1 ≤ 2 ^ 64 / d * d :=
    calc n + 1 = (n + 1) / d * d := (Nat.div_mul_cancel ((mod_eq_pred_iff pos n).1 rem)).symm
      _ ≤ 2 ^ 64 / d * d := Nat.mul_le_mul_right d (Nat.div_le_div_right n_lt)
  rw [← lastDividend_succ pos lt] at next_le
  omega

end LastDividend

/-- Whether some dividend of `d` is inexact, as a test of one number: the error of the last dividend
with the remainder `d - 1` reaches one scale (R57). -/
def hasInexactDividend (d : Nat) : Bool :=
  decide (2 ^ shiftNumber d ≤ lastDividend d * errorNumber d)

theorem holdsInstance_constructInstance {d : Word} (hd : d ≠ 0) (s : State) :
    HoldsInstance (constructInstance d s) :=
  holdsInstance_of_built hd rfl rfl rfl

/-- The test is the one dividend that decides for all. -/
theorem exists_quotient_ne_iff {d : Word} (hd : d ≠ 0) (s : State) :
    (∃ n : Word, quotient n (constructInstance d s) ≠ n / d) ↔
      hasInexactDividend d.toNat = true := by
  have h := holdsInstance_constructInstance hd s
  have pos := toNat_pos_of_ne hd
  have lastEq : (BitVec.ofNat 64 (lastDividend d.toNat)).toNat = lastDividend d.toNat :=
    Nat.mod_eq_of_lt (lastDividend_lt pos d.isLt)
  have last : (BitVec.ofNat 64 (lastDividend d.toNat)).toNat % d.toNat = d.toNat - 1 := by
    rw [lastEq, lastDividend_mod pos d.isLt]
  have decides := exists_not_inExactnessDomain_iff h last fun n rem => by
    rw [lastEq]
    exact le_lastDividend pos d.isLt n.isLt rem
  calc (∃ n : Word, quotient n (constructInstance d s) ≠ n / d)
      ↔ ∃ n : Word, ¬ InExactnessDomain n (constructInstance d s) :=
        exists_congr fun n => not_congr (quotient_eq_div_iff h n)
    _ ↔ _ := decides.trans (not_inExactnessDomain_iff h _)
    _ ↔ hasInexactDividend d.toNat = true := by
      rw [constructInstance_m, lastEq, hasInexactDividend, decide_eq_true_eq]
      exact and_iff_right (lastDividend_mod pos d.isLt)

theorem quotient_eq_div_of_not_hasInexactDividend {d : Word} (hd : d ≠ 0)
    (never : hasInexactDividend d.toNat = false) (s : State) (n : Word) :
    quotient n (constructInstance d s) = n / d := by
  by_contra inexact
  exact Bool.false_ne_true (never.symm.trans ((exists_quotient_ne_iff hd s).1 ⟨n, inexact⟩))

/-- The test over the divisors up to 64 picks out R58's list. -/
theorem hasInexactDividend_iff_mem : ∀ d < 65, 1 ≤ d → (hasInexactDividend d = true ↔
    d ∈ [7, 14, 21, 23, 25, 28, 29, 31, 39, 42, 46, 47, 49, 50, 53, 55, 56, 58, 61, 62, 63]) := by
  decide

/-! ### The special divisors (R60) -/

/-- `2^64 - 1` is never inexact: its error term is `2^63 - 1` at the scale `2^127` (R58, R60). -/
theorem inExactnessDomain_of_max {s : State} (h : HoldsInstance s) (hm : s.m = 0xFFFFFFFFFFFFFFFF)
    (n : Word) : InExactnessDomain n s := by
  have errorLe : errorNumber (0xFFFFFFFFFFFFFFFF : Word).toNat * 2 ^ 64
      ≤ 2 ^ shiftNumber (0xFFFFFFFFFFFFFFFF : Word).toNat := by decide
  exact inExactnessDomain_of_errorNumber_le h n (by rwa [hm])

/-- The registers for the divisor `2^j` (R60). -/
theorem registers_of_two_pow {s : State} (h : HoldsInstance s) {j : Nat} (pos : 1 ≤ j)
    (hj : s.m.toNat = 2 ^ j) : s.shift.toNat = 63 + j ∧ s.mult.toNat = 2 ^ 63 := by
  have two_le : 2 ≤ 2 ^ j := Nat.le_self_pow (by omega) 2
  have logEq : Nat.log2 (2 ^ j - 1) = j - 1 := by
    rw [log2_pred_eq_iff two_le, Nat.sub_add_cancel pos]
    exact ⟨Nat.pow_lt_pow_right Nat.one_lt_two (by omega), le_rfl⟩
  rw [h.shift_eq, h.mult_eq, hj, shiftNumber_of_two_le two_le,
    multNumber_eq_two_pow_63_iff two_le, logEq, Nat.sub_add_cancel pos]
  exact ⟨by omega, rfl⟩

/-- The registers for the divisor 1 (R60). -/
theorem registers_of_one {s : State} (h : HoldsInstance s) (hm : s.m = 1) :
    s.shift = 0 ∧ s.mult = 1 := by
  obtain ⟨-, hshift, hmult⟩ := h
  rw [hm] at hshift hmult
  exact ⟨BitVec.eq_of_toNat_eq hshift, BitVec.eq_of_toNat_eq hmult⟩

/-! ### The statements on `DIV` -/

/-- Settles O25: the answer is `quotient`, which does not read `M`. -/
theorem divAnswersTheShiftedProduct : Obligations.DivAnswersTheShiftedProduct := by
  intro n s hv
  exact ⟨quotient n s, (onlyAnswers_div_iff hv n _).2 rfl, quotient_toNat n s,
    fun m => (onlyAnswers_div_iff (s := { s with m := m }) hv n _).2 rfl⟩

/-- Settles O26: the product of two 64-bit words fits 128 bits, and shifting it by 64 and then by
the rest is shifting it by the whole amount. -/
theorem divLosesNoBit : Obligations.DivLosesNoBit := by
  intro n s
  have productLt : n.toNat * s.mult.toNat < 2 ^ 128 := umul128_toNat n s.mult ▸ BitVec.isLt _
  refine ⟨⟨umul128_toNat n s.mult, productLt⟩, fun h => ?_, fun shiftGe => ?_⟩
  · have shiftedLt := shifted_product_lt h n
    rw [trunc64_toNat, shiftRight128_toNat, umul128_toNat]
    exact ⟨shiftedLt, Nat.mod_eq_of_lt shiftedLt⟩
  · have shiftLt := s.shift.isLt
    have highLt : n.toNat * s.mult.toNat / 2 ^ 64 < 2 ^ 64 := Nat.div_lt_of_lt_mul productLt
    have inTwo : n.toNat * s.mult.toNat / 2 ^ s.shift.toNat
        = n.toNat * s.mult.toNat / 2 ^ 64 / 2 ^ (s.shift.toNat - 64) := by
      rw [Nat.div_div_eq_div_mul, ← pow_add, Nat.add_sub_of_le shiftGe]
    refine ⟨by omega, BitVec.eq_of_toNat_eq ?_⟩
    rw [trunc64_toNat, shiftRight128_toNat, BitVec.toNat_ushiftRight, BitVec.extractLsb'_toNat,
      umul128_toNat, Nat.shiftRight_eq_div_pow, Nat.shiftRight_eq_div_pow, Nat.mod_eq_of_lt highLt,
      inTwo, Nat.mod_eq_of_lt ((Nat.div_le_self ..).trans_lt highLt)]

/-- Settles O27: inside the domain the excess is 0, outside it is 1, and the three conditions say
the same of the domain. -/
theorem divIsTheTrueQuotientOrOneMore : Obligations.DivIsTheTrueQuotientOrOneMore := by
  intro s hv h
  refine ⟨fun n => ?_, fun nmax => exists_not_inExactnessDomain_iff h⟩
  have gapForm : ¬ InExactnessDomain n s ↔
      ((s.m.toNat : Int) - (n.toNat % s.m.toNat : Nat)) * 2 ^ s.shift.toNat
        ≤ n.toNat * errorTerm s := not_lt
  have lastForm : ¬ InExactnessDomain n s ↔ n.toNat % s.m.toNat = s.m.toNat - 1 ∧
      (2 : Int) ^ s.shift.toNat ≤ n.toNat * errorTerm s := by
    rw [not_inExactnessDomain_iff h, errorTerm_eq_errorNumber h, h.shift_eq]
    exact_mod_cast Iff.rfl
  rw [← gapForm, ← lastForm]
  by_cases inside : InExactnessDomain n s
  · exact ⟨_, 0, (onlyAnswers_div_iff hv n _).2 rfl, quotient_of_inExactnessDomain h inside,
      by simp [inside]⟩
  · exact ⟨_, 1, (onlyAnswers_div_iff hv n _).2 rfl, quotient_of_not_inExactnessDomain h inside,
      by simp [inside]⟩

/-- Settles O28: each condition keeps the error below one scale, by its own lemma; outside the
domain the error has reached one scale with a dividend below `2^64`. -/
theorem divIsExactUnderTheSufficientConditions :
    Obligations.DivIsExactUnderTheSufficientConditions := by
  intro n s hv h
  rw [errorTerm_eq_errorNumber h, h.shift_eq]
  refine ⟨fun condition => ?_, fun outside => ?_⟩
  · have inside : InExactnessDomain n s := by
      rcases condition with errorLt | dividendLt | errorLe | ⟨j, hj⟩
      · exact inExactnessDomain_of_mul_errorNumber_lt h (by exact_mod_cast errorLt)
      · exact inExactnessDomain_of_lt_two_pow_63 h dividendLt
      · exact inExactnessDomain_of_errorNumber_le h n (by exact_mod_cast errorLe)
      · exact inExactnessDomain_of_two_pow h n hj
    exact ⟨inside, _, (onlyAnswers_div_iff hv n _).2 rfl, quotient_of_inExactnessDomain h inside⟩
  · obtain ⟨-, scaleLe⟩ := (not_inExactnessDomain_iff h n).1 outside
    have errorGt : 2 ^ shiftNumber s.m.toNat < errorNumber s.m.toNat * 2 ^ 64 := by
      by_contra errorLe
      exact outside (inExactnessDomain_of_errorNumber_le h n (not_lt.1 errorLe))
    have scaleGt := two_pow_63_mul_errorNumber_lt h.m_pos
    exact ⟨by exact_mod_cast errorGt, by exact_mod_cast scaleLe, by exact_mod_cast scaleGt⟩

/-- Settles O29: the listed divisors by the test of one number; for 7, whose error is 6 at the scale
`2^66`, the least dividend with the remainder 6 and an error of one scale is the rule's. -/
theorem divisorsWithAnInexactDividend : Obligations.DivisorsWithAnInexactDividend := by
  refine ⟨fun s d pos le => ?_, fun s d listed => ?_, fun s d listed => ?_, fun s => ?_⟩
  · rw [exists_quotient_ne_iff (by rintro rfl; exact absurd pos (by decide)),
      hasInexactDividend_iff_mem _ (Nat.lt_succ_of_le le) pos]
  · have checked := (List.all_eq_true
      (p := fun d : Word => d != 0 && !hasInexactDividend d.toNat)).1 (by decide) d listed
    obtain ⟨hd, never⟩ : d ≠ 0 ∧ hasInexactDividend d.toNat = false := by simpa using checked
    exact quotient_eq_div_of_not_hasInexactDividend hd never s
  · have checked := (List.all_eq_true
      (p := fun d : Word => d != 0 && hasInexactDividend d.toNat)).1 (by decide) d listed
    obtain ⟨hd, inexact⟩ : d ≠ 0 ∧ hasInexactDividend d.toNat = true := by simpa using checked
    exact (exists_quotient_ne_iff hd s).2 inexact
  · have h := holdsInstance_constructInstance (d := 7) (by decide) s
    refine ⟨?_, rfl, fun n lt => (quotient_eq_div_iff h n).2 ?_⟩
    · have outside : ¬ InExactnessDomain 0xAAAAAAAAAAAAAAAD (constructInstance 7 s) := by
        rw [not_inExactnessDomain_iff h, constructInstance_m]
        decide
      exact BitVec.eq_of_toNat_eq (by
        rw [quotient_of_not_inExactnessDomain h outside, constructInstance_m]
        rfl)
    · have scale : errorNumber (7 : Word).toNat = 6 ∧ shiftNumber (7 : Word).toNat = 66 := by decide
      have seven : (7 : Word).toNat = 7 := rfl
      by_contra outside
      rw [not_inExactnessDomain_iff h, constructInstance_m, scale.1, scale.2, seven] at outside
      omega

/-- Settles O30: each of the divisors is exact for the dividends the statement speaks of, and the
true quotient is the one it names. -/
theorem divBySpecialDivisors : Obligations.DivBySpecialDivisors := by
  intro n s hv h
  have answers {data : Word} (inside : InExactnessDomain n s) (div : n / s.m = data) :
      OnlyAnswers (.div n) s .ok data :=
    (onlyAnswers_div_iff hv n data).2 (((quotient_eq_div_iff h n).2 inside).trans div)
  refine ⟨fun hm => ?_, fun j pos _ hj => ?_, fun below small => ?_, fun hm => ⟨?_, fun ne => ?_⟩⟩
  · obtain ⟨hshift, hmult⟩ := registers_of_one h hm
    exact ⟨hshift, hmult, answers (inExactnessDomain_of_two_pow h n (j := 0) (by rw [hm]; rfl))
      (by rw [hm]; exact BitVec.udiv_one)⟩
  · obtain ⟨hshift, hmult⟩ := registers_of_two_pow h pos hj
    have shifted : (n >>> j).toNat = n.toNat / 2 ^ j := by
      rw [BitVec.toNat_ushiftRight, Nat.shiftRight_eq_div_pow]
    exact ⟨hshift, hmult, answers (inExactnessDomain_of_two_pow h n hj)
      (BitVec.eq_of_toNat_eq (by rw [BitVec.toNat_udiv, hj, shifted])), shifted⟩
  · exact answers (inExactnessDomain_of_lt_two_pow_63 h small)
      (BitVec.udiv_eq_zero_iff_eq_zero_or_lt.2 (.inr below))
  · rintro rfl
    exact answers (inExactnessDomain_of_max h hm _) (by rw [hm]; rfl)
  · have below : n < s.m := by rw [hm]; bv_omega
    exact answers (inExactnessDomain_of_max h hm n)
      (BitVec.udiv_eq_zero_iff_eq_zero_or_lt.2 (.inr below))

end Sys2Proof.Machine
end

section
/-! PROOFS of the statements on `RED`: the correction modulo `2^64`, the true remainder where `DIV` is
exact and `2^64 - 1` where it is not, and the special divisors (spec/42_modular_reduction_unit.md). -/

namespace Sys2Proof.Machine

open Sys2Proof.Safety

/-! ### The correction as numbers (R62, R63) -/

theorem mulLow64_toNat (a b : Word) : (mulLow64 a b).toNat = a.toNat * b.toNat % 2 ^ 64 :=
  BitVec.toNat_mul a b

/-- The difference as an exact integer, its borrow discarded. -/
theorem subWrap64_toNat (a b : Word) :
    ((subWrap64 a b).toNat : Int) = ((a.toNat : Int) - b.toNat) % 2 ^ 64 := by
  have a_lt := a.isLt
  have b_lt := b.isLt
  rw [subWrap64, BitVec.toNat_sub]
  omega

/-- Without a borrow the difference is the one of the numbers. -/
theorem subWrap64_toNat_of_le {a b : Word} (le : b.toNat ≤ a.toNat) :
    (subWrap64 a b).toNat = a.toNat - b.toNat :=
  BitVec.toNat_sub_of_le le

section Remainder

variable {s : State}

theorem onlyAnswers_red_iff (hv : s.valid = true) (n data : Word) :
    OnlyAnswers (.red n) s .ok data ↔ remainder n s = data :=
  onlyAnswers_reading_iff ⟨n, .inr rfl⟩ hv data

/-- The product is narrowed before the subtraction or not at all: the result is the same, since the
subtraction is modulo `2^64` (R63). -/
theorem remainder_toNat (n : Word) (s : State) :
    ((remainder n s).toNat : Int)
      = ((n.toNat : Int) - (quotient n s).toNat * s.m.toNat) % 2 ^ 64 := by
  rw [remainder, subWrap64_toNat, mulLow64_toNat]
  push_cast
  exact Int.sub_emod_emod ..

theorem quotient_mul_le_of_exact {n : Word} (exact : (quotient n s).toNat = n.toNat / s.m.toNat) :
    (quotient n s).toNat * s.m.toNat ≤ n.toNat := by
  rw [exact]
  exact Nat.div_mul_le_self ..

/-- Where `DIV` is exact the product is at most the dividend, so it has no high half (R63). -/
theorem mulLow64_toNat_of_exact {n : Word} (exact : (quotient n s).toNat = n.toNat / s.m.toNat) :
    (mulLow64 (quotient n s) s.m).toNat = (quotient n s).toNat * s.m.toNat := by
  rw [mulLow64_toNat, Nat.mod_eq_of_lt ((quotient_mul_le_of_exact exact).trans_lt n.isLt)]

/-- Where `DIV` is exact no borrow is discarded either (R63). -/
theorem remainder_toNat_of_exact {n : Word} (exact : (quotient n s).toNat = n.toNat / s.m.toNat) :
    (remainder n s).toNat = n.toNat - (quotient n s).toNat * s.m.toNat := by
  have uncut := mulLow64_toNat_of_exact exact
  rw [remainder, subWrap64_toNat_of_le (uncut.trans_le (quotient_mul_le_of_exact exact)), uncut]

/-! ### The true remainder or `2^64 - 1` (R64) -/

theorem remainder_of_inExactnessDomain (h : HoldsInstance s) {n : Word}
    (inside : InExactnessDomain n s) : (remainder n s).toNat = n.toNat % s.m.toNat := by
  have exact := quotient_of_inExactnessDomain h inside
  rw [remainder_toNat_of_exact exact, exact, Nat.mod_eq_sub_div_mul]

/-- Outside the domain the quotient is one too large and the true remainder is `M - 1`, which leaves
the difference -1. -/
theorem remainder_of_not_inExactnessDomain (h : HoldsInstance s) {n : Word}
    (outside : ¬ InExactnessDomain n s) : remainder n s = 0xFFFFFFFFFFFFFFFF := by
  obtain ⟨last, -⟩ := (not_inExactnessDomain_iff h n).1 outside
  have oneMore : (quotient n s).toNat * s.m.toNat = n.toNat + 1 := by
    have split := Nat.div_add_mod' n.toNat s.m.toNat
    have pos := h.m_pos
    rw [quotient_of_not_inExactnessDomain h outside, Nat.add_one_mul]
    omega
  have value := remainder_toNat n s
  rw [← Nat.cast_mul, oneMore] at value
  exact BitVec.eq_of_toNat_eq (show (remainder n s).toNat = 2 ^ 64 - 1 by omega)

/-- A true remainder is below the divisor, so `2^64 - 1` is never one. -/
theorem remainder_eq_allOnes_iff (h : HoldsInstance s) (n : Word) :
    remainder n s = 0xFFFFFFFFFFFFFFFF ↔ ¬ InExactnessDomain n s := by
  refine ⟨fun allOnes inside => ?_, remainder_of_not_inExactnessDomain h⟩
  have value := remainder_of_inExactnessDomain h inside
  rw [allOnes] at value
  have rem_lt := Nat.mod_lt n.toNat h.m_pos
  have m_lt := s.m.isLt
  have allOnes_toNat : (0xFFFFFFFFFFFFFFFF : Word).toNat = 2 ^ 64 - 1 := rfl
  omega

/-! ### Dividends that are never inexact, and one that is (R64) -/

theorem inExactnessDomain_of_mod_ne (h : HoldsInstance s) {n : Word}
    (ne : n.toNat % s.m.toNat ≠ s.m.toNat - 1) : InExactnessDomain n s := by
  by_contra outside
  exact ne ((not_inExactnessDomain_iff h n).1 outside).1

/-- A multiple of `M` has the remainder `M - 1` only for `M = 1`, the power of two that is never
inexact. -/
theorem inExactnessDomain_of_dvd (h : HoldsInstance s) {n : Word}
    (dvd : s.m.toNat ∣ n.toNat) : InExactnessDomain n s := by
  by_cases one : s.m.toNat = 1
  · exact inExactnessDomain_of_two_pow h n (j := 0) one
  · have pos := h.m_pos
    exact inExactnessDomain_of_mod_ne h (by rw [Nat.mod_eq_zero_of_dvd dvd]; omega)

/-- The rule's example: for 7 the error is 6 at the scale `2^66`, and this dividend takes it to one
scale. -/
theorem not_inExactnessDomain_of_seven (h : HoldsInstance s) (hm : s.m = 7) :
    ¬ InExactnessDomain 0xAAAAAAAAAAAAAAAD s := by
  rw [not_inExactnessDomain_iff h, hm]
  decide

end Remainder

/-! ### The statements on `RED` -/

/-- Settles O31: the two answers are `quotient` and `remainder`, and `remainder_toNat` relates them. -/
theorem redAnswersTheWrappedDifference : Obligations.RedAnswersTheWrappedDifference := by
  intro n s hv
  exact ⟨quotient n s, remainder n s, (onlyAnswers_div_iff hv n _).2 rfl,
    (onlyAnswers_red_iff hv n _).2 rfl, remainder_toNat n s⟩

/-- Settles O32: the product's and the difference's values, each modulo `2^64`; with the floor
quotient neither leaves the 64-bit range. -/
theorem redCorrectionWrapsAtSixtyFourBits : Obligations.RedCorrectionWrapsAtSixtyFourBits := by
  intro n s
  refine ⟨fun hv => (onlyAnswers_red_iff hv n _).2 rfl,
    ⟨mulLow64_toNat .., subWrap64_toNat .., remainder_toNat n s⟩, fun exact =>
    ⟨quotient_mul_le_of_exact exact, mulLow64_toNat_of_exact exact, remainder_toNat_of_exact exact⟩⟩

/-- Settles O33: `RED` is the true remainder inside the domain and `2^64 - 1` outside it; each of the
other clauses names dividends inside it, or the one outside. -/
theorem redIsTheRemainderOrAllOnes : Obligations.RedIsTheRemainderOrAllOnes := by
  intro n s hv h
  have insideGives := remainder_of_inExactnessDomain h (n := n)
  refine ⟨remainder n s, (onlyAnswers_red_iff hv n _).2 rfl, insideGives,
    remainder_of_not_inExactnessDomain h, remainder_eq_allOnes_iff h n,
    fun ne => insideGives (inExactnessDomain_of_mod_ne h ne), fun dvd => ?_,
    fun condition => ?_, fun hm hn => ?_⟩
  · have value := insideGives (inExactnessDomain_of_dvd h dvd)
    exact BitVec.eq_of_toNat_eq (value.trans (Nat.mod_eq_zero_of_dvd dvd))
  · obtain ⟨sufficient, -⟩ := divIsExactUnderTheSufficientConditions n s hv h
    exact insideGives (sufficient condition).1
  · subst hn
    exact ⟨remainder_of_not_inExactnessDomain h (not_inExactnessDomain_of_seven h hm), by decide⟩

/-- Settles O34: no power of two, 1 among them, is ever inexact; `RED` is computed from the `DIV`
result. -/
theorem redBySpecialDivisors : Obligations.RedBySpecialDivisors := by
  intro n s hv h
  have answers : OnlyAnswers (.red n) s .ok (remainder n s) := (onlyAnswers_red_iff hv n _).2 rfl
  have valueOfTwoPow {j : Nat} (hj : s.m.toNat = 2 ^ j) :
      (remainder n s).toNat = n.toNat % 2 ^ j := by
    rw [remainder_of_inExactnessDomain h (inExactnessDomain_of_two_pow h n hj), hj]
  refine ⟨fun hm => ?_, fun j _ _ hj => ⟨_, answers, valueOfTwoPow hj⟩,
    quotient n s, _, (onlyAnswers_div_iff hv n _).2 rfl, answers, remainder_eq n s⟩
  have value := valueOfTwoPow (j := 0) (by rw [hm]; rfl)
  exact (onlyAnswers_red_iff hv n 0).2 (BitVec.eq_of_toNat_eq (value.trans (Nat.mod_one _)))

end Sys2Proof.Machine
end

section
/-! PROOFS of the statements on the host-side consumer: `MULRED` and `FACTMOD` as responses of the
block, their agreement with exact integers, and the hardware-division baseline
(spec/43_host_driver_and_baselines.md). -/

namespace Sys2Proof.Machine

open Sys2Proof.Safety

/-! ### What the host's `MULRED` is for the block (R70) -/

/-- A command issued by the host is that command's meaning, whatever else is presented. -/
theorem issue_eq_exec (i : Instr) (s : State) : issue i s = exec i s := by
  rw [issue, step_presentNext, decode_encode]

theorem mulred_of_ge {a b : Word} (wide : 2 ^ 64 ≤ a.toNat * b.toNat) (s : State) :
    mulred a b s = .refused .productTooWide := if_neg wide.not_gt

theorem mulred_of_lt {a b : Word} (fits : a.toNat * b.toNat < 2 ^ 64) (s : State) :
    mulred a b s = exec (.red (a * b)) s := by
  have operand : BitVec.ofNat 64 (a.toNat * b.toNat) = a * b :=
    BitVec.eq_of_toNat_eq (BitVec.toNat_ofNat ..)
  rw [mulred, if_pos fits, issue_eq_exec, operand]

theorem mulred_of_valid {a b : Word} (fits : a.toNat * b.toNat < 2 ^ 64) {s : State}
    (hv : s.valid = true) :
    mulred a b s = .next (respond .ok (remainder (a * b) s) s) := by
  rw [mulred_of_lt fits, exec_red_of_valid _ hv]

/-- If `MULRED` completes, the block has given one response and done nothing else. -/
theorem eq_respond_of_mulred {a b : Word} {s t : State} (h : mulred a b s = .next t) :
    ∃ st data, t = respond st data s := by
  rcases lt_or_ge (a.toNat * b.toNat) (2 ^ 64) with fits | wide
  · obtain ⟨st, data, hexec⟩ := exec_of_not_build (i := .red (a * b)) (by simp) s
    rw [mulred_of_lt fits, hexec] at h
    exact ⟨st, data, (Host.Outcome.next.inj h).symm⟩
  · rw [mulred_of_ge wide] at h
    cases h

/-- Inside the exactness domain `MULRED` and the oracle give the same number (R70, R73). -/
theorem remainder_mul_eq_genericReduce {a b : Word} {s : State} (h : HoldsInstance s)
    (fits : a.toNat * b.toNat < 2 ^ 64) (inside : InExactnessDomain (a * b) s) :
    (remainder (a * b) s).toNat = genericReduce a.toNat b.toNat s.m.toNat := by
  rw [remainder_of_inExactnessDomain h inside, BitVec.toNat_mul_of_lt fits, genericReduce]

theorem remainder_mul_eq_genericReduce_of_lt {a b : Word} {s : State} (h : HoldsInstance s)
    (small : a.toNat * b.toNat < 2 ^ 63) :
    (remainder (a * b) s).toNat = genericReduce a.toNat b.toNat s.m.toNat := by
  have fits : a.toNat * b.toNat < 2 ^ 64 := by omega
  exact remainder_mul_eq_genericReduce h fits
    (inExactnessDomain_of_lt_two_pow_63 h (by rwa [BitVec.toNat_mul_of_lt fits]))

/-! ### The routine `FACTMOD` (R71) -/

/-- The state in which the loop of `FACTMOD` starts: the block has answered `BUILD d`, with `d`
not 0. -/
def afterBuild (d : Word) (s : State) : State := respond .ok 0 (constructInstance d s)

@[simp] theorem afterBuild_valid (d : Word) (s : State) : (afterBuild d s).valid = true := rfl
@[simp] theorem afterBuild_m (d : Word) (s : State) : (afterBuild d s).m = d := rfl
@[simp] theorem afterBuild_responses (d : Word) (s : State) :
    (afterBuild d s).responses = s.responses ++ [responseWord .ok 0] := rfl

theorem issue_build_of_ne {d : Word} (hd : d ≠ 0) (s : State) :
    issue (.build d) s = .next (afterBuild d s) := by
  rw [issue_eq_exec, exec_build_of_ne hd, afterBuild]

theorem okData_afterBuild (d : Word) (s : State) : okData (afterBuild d s) = some 0 :=
  okData_respond ..

theorem holdsInstance_afterBuild {d : Word} (hd : d ≠ 0) (s : State) :
    HoldsInstance (afterBuild d s) :=
  holdsInstance_of_built hd rfl rfl rfl

/-- The host has no use of the data of an error response (R91). -/
theorem okData_raise (e : BlockError) (s : State) : okData (raise e s) = none := by
  rw [raise_eq_respond, okData_respond]
  cases e <;> rfl

theorem factmodLoop_succ {i acc : Word} (fits : acc.toNat * i.toNat < 2 ^ 64) {s : State}
    (hv : s.valid = true) (remaining : Nat) :
    factmodLoop (remaining + 1) i acc s
      = factmodLoop remaining (i + 1) (remainder (acc * i) s)
          (respond .ok (remainder (acc * i) s) s) := by
  simp only [factmodLoop, mulred_of_valid fits hv, okData_respond, if_true]

theorem factmod_of_ne {modulus : Word} (hm : modulus ≠ 0) (nFact : Word) (s : State) :
    factmod nFact modulus s = factmodLoop nFact.toNat 1 1 (afterBuild modulus s) := by
  simp only [factmod, issue_build_of_ne hm, okData_afterBuild]

theorem factmod_zero_modulus (nFact : Word) (s : State) :
    factmod nFact 0 s = .fault .preconditionFailure := by
  simp only [factmod, issue_eq_exec, exec_build_zero, okData_raise]

/-- No `MULRED` of the loop writes a register, so a loop that ends leaves the instance it started
with (R76 item 4). -/
theorem sameRegisters_of_factmodLoop {remaining : Nat} {i acc data : Word} {s t : State}
    (h : factmodLoop remaining i acc s = .next (t, data)) : SameRegisters s t := by
  induction remaining generalizing i acc s with
  | zero =>
    obtain ⟨rfl, -⟩ := Prod.mk.inj (Host.Outcome.next.inj h)
    exact sameRegisters_refl s
  | succ remaining ih =>
    rw [factmodLoop] at h
    split at h
    next u hu =>
      obtain ⟨st, answer, rfl⟩ := eq_respond_of_mulred hu
      split at h
      · exact sameRegisters_trans (sameRegisters_respond st answer s) (ih h)
      · cases h
    next => cases h
    next => cases h

/-! ### Agreement with the oracle (R72, R75) -/

/-- A nonempty oracle loop gives the product of its indices, reduced once at the end. -/
theorem genericLoop_succ_eq (m remaining i acc : Nat) :
    genericLoop m (remaining + 1) i acc = acc * i.ascFactorial (remaining + 1) % m := by
  induction remaining generalizing i acc with
  | zero => simp [genericLoop, genericReduce, Nat.ascFactorial]
  | succ remaining ih =>
    calc genericLoop m (remaining + 2) i acc
        = genericLoop m (remaining + 1) (i + 1) (acc * i % m) := rfl
      _ = acc * i % m * (i + 1).ascFactorial (remaining + 1) % m := ih ..
      _ = acc * (i * (i + 1).ascFactorial (remaining + 1)) % m := by
        rw [Nat.mod_mul_mod, Nat.mul_assoc]
      _ = acc * i.ascFactorial (remaining + 2) % m := by
        rw [Nat.succ_ascFactorial, ← Nat.ascFactorial_succ]

theorem genericFactmod_eq_factorial_mod {n : Nat} (pos : 1 ≤ n) (m : Nat) :
    genericFactmod n m = n.factorial % m := by
  obtain ⟨k, rfl⟩ := Nat.exists_eq_add_of_le' pos
  rw [genericFactmod, genericLoop_succ_eq, Nat.one_mul, Nat.one_ascFactorial]

/-- Under the bound of R72 every product of the loop is below `2^63`, so every `RED` is exact and
the loop is the oracle's; the new accumulator is a remainder, which keeps the bound. -/
theorem factmodLoop_agrees {n : Nat} (remaining : Nat) (i acc : Word) (s : State)
    (hv : s.valid = true) (h : HoldsInstance s) (bound : max 1 (s.m.toNat - 1) * n < 2 ^ 63)
    (accLe : acc.toNat ≤ max 1 (s.m.toNat - 1)) (indexLe : i.toNat + remaining ≤ n + 1) :
    ∃ t data, factmodLoop remaining i acc s = .next (t, data) ∧
      data.toNat = genericLoop s.m.toNat remaining i.toNat acc.toNat ∧
      t.responses.length = s.responses.length + remaining := by
  induction remaining generalizing i acc s with
  | zero => exact ⟨s, acc, rfl, rfl, rfl⟩
  | succ remaining ih =>
    have small : acc.toNat * i.toNat < 2 ^ 63 :=
      (Nat.mul_le_mul accLe (by omega)).trans_lt bound
    have nLt : n < 2 ^ 63 := (Nat.le_mul_of_pos_left n (by omega)).trans_lt bound
    have nextIndex : (i + 1).toNat = i.toNat + 1 :=
      BitVec.toNat_add_of_lt (show i.toNat + 1 < 2 ^ 64 by omega)
    have exactRed := remainder_mul_eq_genericReduce_of_lt h small
    have reducedLt : genericReduce acc.toNat i.toNat s.m.toNat < s.m.toNat := Nat.mod_lt _ h.m_pos
    obtain ⟨t, data, hloop, hdata, hlength⟩ :=
      ih (i + 1) (remainder (acc * i) s) (respond .ok (remainder (acc * i) s) s) hv
        (holdsInstance_of_sameRegisters (sameRegisters_respond ..) h) bound
        (by rw [exactRed, respond_m]; omega) (by omega)
    refine ⟨t, data, (factmodLoop_succ (by omega) hv remaining).trans hloop, ?_, ?_⟩
    · rw [hdata, exactRed, nextIndex, respond_m, genericLoop]
    · rw [hlength, respond_responses, List.length_append, List.length_singleton]
      omega

/-! ### The modulus 1 (R76 item 2) -/

theorem remainder_zero (s : State) : remainder 0 s = 0 := by
  have quotientZero : quotient 0 s = 0 := BitVec.eq_of_toNat_eq (by simp [quotient_toNat])
  rw [remainder_eq, quotientZero, zero_mul, sub_zero]

/-- Once the accumulator is 0 every product is 0, and so is every response, for any divisor. -/
theorem factmodLoop_zero_acc (remaining : Nat) (i : Word) (s : State) (hv : s.valid = true) :
    ∃ t, factmodLoop remaining i 0 s = .next (t, 0) ∧
      t.responses = s.responses ++ List.replicate remaining (responseWord .ok 0) := by
  induction remaining generalizing i s with
  | zero => exact ⟨s, rfl, (List.append_nil _).symm⟩
  | succ remaining ih =>
    have first := factmodLoop_succ (i := i) (acc := 0) (by simp) hv remaining
    rw [zero_mul, remainder_zero] at first
    obtain ⟨t, hloop, hresp⟩ := ih (i + 1) (respond .ok 0 s) hv
    exact ⟨t, first.trans hloop, by
      rw [hresp, respond_responses, List.append_assoc, List.singleton_append,
        List.replicate_succ]⟩

/-- With the modulus 1 the first `RED` gives 0, and the accumulator stays 0. -/
theorem factmod_modulus_one {nFact : Word} (pos : 1 ≤ nFact.toNat) (s : State) :
    ∃ t, factmod nFact 1 s = .next (t, 0) ∧
      t.responses = s.responses ++ List.replicate (1 + nFact.toNat) (responseWord .ok 0) := by
  obtain ⟨k, hk⟩ := Nat.exists_eq_add_of_le' pos
  have one_ne : (1 : Word) ≠ 0 := by decide
  have firstRed : remainder (1 * 1) (afterBuild 1 s) = 0 :=
    BitVec.eq_of_toNat_eq ((remainder_mul_eq_genericReduce_of_lt
      (holdsInstance_afterBuild one_ne s) (by decide)).trans (Nat.mod_one _))
  have first := factmodLoop_succ (i := 1) (acc := 1) (by decide) (afterBuild_valid 1 s) k
  rw [firstRed] at first
  obtain ⟨t, hloop, hresp⟩ :=
    factmodLoop_zero_acc k (1 + 1) (respond .ok 0 (afterBuild 1 s)) (afterBuild_valid 1 s)
  refine ⟨t, ?_, ?_⟩
  · rw [factmod_of_ne one_ne, hk, first, hloop]
  · simp only [hresp, hk, respond_responses, afterBuild_responses, Nat.add_comm 1,
      List.replicate_succ, List.append_assoc, List.cons_append, List.nil_append]

/-! ### The hardware-division baseline (R74) -/

theorem divisionPrecondition_eq_true_iff (a b m : Nat) :
    divisionPrecondition a b m = true ↔
      0 < m ∧ m < 2 ^ 32 ∧ a * b < 2 ^ 64 ∧ a * b / 2 ^ 32 < m := decide_eq_true_iff

theorem hardwareReduce_of_precondition {a b m : Nat} (h : divisionPrecondition a b m = true) :
    hardwareReduce a b m = .next (genericReduce a b m) := if_pos h

theorem hardwareReduce_of_not_precondition {a b m : Nat}
    (h : ¬ divisionPrecondition a b m = true) :
    hardwareReduce a b m = .refused .divisionPrecondition := if_neg h

/-! ### The statements -/

/-- Settles O47: with an instance or without one, `MULRED` is the answer of `RED` to the product,
and a product below `2^63` is in the exactness domain. -/
theorem mulredReducesTheProduct : Obligations.MulredReducesTheProduct := by
  intro a b s
  refine ⟨fun wide => mulred_of_ge wide s, fun fits => mulred_of_lt fits s, fun fits hv => ?_,
    fun fits hv h => ?_⟩
  · exact ⟨raise .noDivisor s, (mulred_of_lt fits s).trans (exec_red_of_not_valid _ hv),
      respond_answered rfl rfl _ _⟩
  · exact ⟨_, remainder (a * b) s, mulred_of_valid fits hv, sameRegisters_respond ..,
      okData_respond .., remainder_mul_eq_genericReduce h fits,
      remainder_mul_eq_genericReduce_of_lt h⟩

/-- Settles O48: after the `BUILD`, whose response is the one more, the loop agrees with the
oracle's from the accumulator 1 on. -/
theorem factmodAgreesWithTheOracle : Obligations.FactmodAgreesWithTheOracle := by
  intro nFact modulus s hm bound
  obtain ⟨t, data, hloop, hdata, hlength⟩ :=
    factmodLoop_agrees nFact.toNat 1 1 (afterBuild modulus s) (afterBuild_valid modulus s)
      (holdsInstance_afterBuild hm s) bound (le_max_left ..) (Nat.add_comm ..).le
  have oracle : data.toNat = genericFactmod nFact.toNat modulus.toNat := hdata
  refine ⟨t, data, (factmod_of_ne hm nFact s).trans hloop, oracle, fun pos => ?_, ?_⟩
  · rw [oracle, genericFactmod_eq_factorial_mod pos]
  · rw [hlength, afterBuild_responses, List.length_append, List.length_singleton]

/-- Settles O49: a loop of no turn, the modulus 1, the modulus 0, and the registers that a loop
keeps. -/
theorem factmodCornerCases : Obligations.FactmodCornerCases := by
  refine ⟨fun modulus s hm => ⟨_, factmod_of_ne hm 0 s, rfl⟩,
    fun nFact s pos => factmod_modulus_one pos s, factmod_zero_modulus,
    fun nFact modulus data s t h => ?_⟩
  by_cases hm : modulus = 0
  · subst hm
    rw [factmod_zero_modulus] at h
    cases h
  · rw [factmod_of_ne hm] at h
    obtain ⟨hvalid, hmKept, -, -⟩ := sameRegisters_of_factmodLoop h
    exact ⟨hvalid.trans (afterBuild_valid ..), hmKept.trans (afterBuild_m ..)⟩

/-- Settles O50: the model's precondition is the conjunction of the four, and a high half below the
divisor makes the quotient fit 32 bits. -/
theorem hardwareStrategyAgreesWithTheOracle : Obligations.HardwareStrategyAgreesWithTheOracle := by
  intro a b m
  refine ⟨fun pos mLt productLt highLt => ⟨hardwareReduce_of_precondition
    ((divisionPrecondition_eq_true_iff a b m).2 ⟨pos, mLt, productLt, highLt⟩), ?_⟩,
    fun outside => hardwareReduce_of_not_precondition fun holds => ?_⟩
  · rw [Nat.div_lt_iff_lt_mul pos, Nat.mul_comm (2 ^ 32)]
    exact (Nat.div_lt_iff_lt_mul (Nat.two_pow_pos 32)).1 highLt
  · obtain ⟨pos, mLt, productLt, highLt⟩ := (divisionPrecondition_eq_true_iff a b m).1 holds
    omega

end Sys2Proof.Machine
end

section
/-! PROOFS of the statements on errors: that no run stops, which command and state raise each error,
what an error changes, and how the block goes on after one (spec/60_exceptions.md). -/

namespace Sys2Proof

/-- A response word carries one status and one data (R36). -/
theorem responseWord_inj {st st' : Status} {data data' : Word} :
    responseWord st data = responseWord st' data' ↔ st = st' ∧ data = data' := by
  refine ⟨fun h => ⟨?_, ?_⟩, fun ⟨hst, hdata⟩ => by rw [hst, hdata]⟩
  · simpa using congrArg responseStatus h
  · simpa using congrArg responseData h

/-- The words below `2^64` are those with `OP = 0b00` (R37, R39). -/
theorem decode_of_lt {w : CMD66} (h : w.toNat < 2 ^ 64) : decode w = .reserved (immField w) := by
  have op : opField w = 0b00#2 :=
    BitVec.eq_of_toNat_eq ((opField_toNat w).trans (Nat.div_eq_of_lt h))
  rw [decode, if_pos op]

end Sys2Proof

namespace Sys2Proof.Machine

open Sys2Proof.Safety

/-! ### No run stops (R80, R101) -/

/-- The step of every state is answered by a next state, so a run of any length is. -/
theorem run_next (k : Nat) (s : State) : ∃ t, Host.Core.run core k s = .next t := by
  induction k generalizing s with
  | zero => exact ⟨s, rfl⟩
  | succ k ih =>
    obtain ⟨u, hstep, -⟩ := stepGivesOneResponsePerCommand s
    obtain ⟨t, hrun⟩ := ih u
    exact ⟨t, (run_succ_of_step hstep k).trans hrun⟩

/-! ### What a response says of its command -/

section Answer

variable {i : Instr} {s t : State} {st : Status} {data : Word}

/-- A command's response word tells which row of R40's table applied, and carries the data of that
command. -/
theorem raisesStatus_of_response (h : exec i s = .next t)
    (response : t.responses = s.responses ++ [responseWord st data]) :
    RaisesStatus st i s ∧ data = answerData i s := by
  obtain ⟨u, hexec, answers, -⟩ := exec_answers i s
  obtain rfl : u = t := Host.Outcome.next.inj (hexec.symm.trans h)
  have sameWord := List.singleton_inj.1 (List.append_cancel_left (answers.symm.trans response))
  obtain ⟨hst, hdata⟩ := responseWord_inj.1 sameWord
  exact ⟨(answerStatus_eq_iff st i s).1 hst, hdata.symm⟩

/-- A command in a state of an error's row answers that error with data 0 (R36, R40). -/
theorem answered_of_raisesStatus (raises : RaisesStatus st i s) (error : st ≠ .ok) :
    ∃ t, exec i s = .next t ∧ Answered s t st 0 := by
  obtain ⟨t, hexec, answered⟩ := exec_answers i s
  obtain rfl := answerStatus_of_raisesStatus raises
  rw [answerData_of_ne_ok error] at answered
  exact ⟨t, hexec, answered⟩

/-! ### What an error changes (R85) -/

/-- `NO_DIVISOR` and `ILLEGAL_OP` are a response and nothing else (R82, R83). -/
theorem onlyAnswers_of_raisesStatus (harmless : st = .illegalOp ∨ st = .noDivisor)
    (raises : RaisesStatus st i s) : OnlyAnswers i s st 0 := by
  obtain rfl | rfl := harmless
  · obtain ⟨imm, rfl⟩ := raises
    exact exec_reserved imm s
  · obtain ⟨hv, reading⟩ := raises
    exact exec_reading_of_not_valid reading hv

theorem eq_respond_of_onlyAnswers (h : exec i s = .next t) (only : OnlyAnswers i s st data) :
    t = respond st data s :=
  Host.Outcome.next.inj (h.symm.trans only)

/-- `ZERO_DIVISOR` leaves no instance (R81). -/
theorem valid_of_exec_build_zero (h : exec (.build 0) s = .next t) : t.valid = false := by
  obtain rfl := Host.Outcome.next.inj ((exec_build_zero s).symm.trans h)
  rw [raise_valid, dropInstance_valid]

/-- The state that an error left is again one of the error's row: only `NO_DIVISOR` depends on the
state, and it keeps `VALID` (R86). -/
theorem raisesStatus_after_error (h : exec i s = .next t) (raises : RaisesStatus st i s)
    (error : st ≠ .ok) : RaisesStatus st i t := by
  cases st with
  | ok => exact absurd rfl error
  | zeroDivisor => exact raises
  | noDivisor =>
    obtain rfl := eq_respond_of_onlyAnswers h (onlyAnswers_of_raisesStatus (.inr rfl) raises)
    exact raises
  | illegalOp => exact raises

end Answer

/-! ### The statements -/

/-- Settles O6: it is `run_next`. -/
theorem everyStateIsSafe : Obligations.EveryStateIsSafe := fun s k => run_next k s

/-- Settles O17: the response word is that of `ZERO_DIVISOR`, whose row of R40's table is
`BUILD 0`. -/
theorem buildZeroDropsTheInstance : Obligations.BuildZeroDropsTheInstance := by
  have word : 0x10000000000000000#66 = responseWord .zeroDivisor 0 := rfl
  rw [Obligations.BuildZeroDropsTheInstance, word]
  refine ⟨fun s => ?_, fun i s t h response => (raisesStatus_of_response h response).1⟩
  obtain ⟨t, hexec, hresp, hpend⟩ :=
    answered_of_raisesStatus (st := .zeroDivisor) (i := .build 0) (s := s) rfl (by decide)
  exact ⟨t, hexec, valid_of_exec_build_zero hexec, hresp, hpend⟩

/-- Settles O36: `NO_DIVISOR` is a response and nothing else, and its row of R40's table is a `DIV`
or `RED` with `VALID = 0`. -/
theorem noDivisorWhileNotValid : Obligations.NoDivisorWhileNotValid :=
  ⟨fun n _ hv => ⟨onlyAnswers_of_raisesStatus (.inr rfl) ⟨hv, n, .inl rfl⟩,
      onlyAnswers_of_raisesStatus (.inr rfl) ⟨hv, n, .inr rfl⟩⟩,
    rfl, fun _ _ _ _ h ⟨response, _⟩ => (raisesStatus_of_response h response).1⟩

/-- Settles O37: `ILLEGAL_OP` is a response and nothing else, its row of R40's table is a reserved
command, and a word below `2^64` is one (`decode_of_lt`). -/
theorem reservedOpcodeIsIllegal : Obligations.ReservedOpcodeIsIllegal := by
  have reserved (imm : Word) (s : State) : OnlyAnswers (.reserved imm) s .illegalOp 0 :=
    onlyAnswers_of_raisesStatus (.inl rfl) ⟨imm, rfl⟩
  refine ⟨reserved, fun w s hw => ?_, rfl,
    fun i s t data h ⟨response, _⟩ => (raisesStatus_of_response h response).1⟩
  rw [decode_of_lt hw]
  exact reserved _ s

/-- Settles O38, with the row of R40's table that the response names: two of the errors only answer,
the third is a `BUILD 0`. -/
theorem errorsChangeNothingButValid : Obligations.ErrorsChangeNothingButValid := by
  intro i s t st data h ⟨response, _⟩ error
  obtain ⟨raises, hdata⟩ := raisesStatus_of_response h response
  refine ⟨fun harmless => ?_, fun zero => ?_, ?_⟩
  · obtain rfl := eq_respond_of_onlyAnswers h (onlyAnswers_of_raisesStatus harmless raises)
    exact ⟨sameRegisters_respond .., respond_draws ..⟩
  · subst zero
    obtain rfl : i = .build 0 := raises
    exact valid_of_exec_build_zero h
  · rw [hdata, answerData_of_ne_ok]
    rwa [answerStatus_of_raisesStatus raises]

/-- Settles O39: the state after the error is again one of the error's row
(`raisesStatus_after_error`), and a `BUILD` of a divisor that is not 0 sets `VALID`. -/
theorem errorsRepeatUntilABuild : Obligations.ErrorsRepeatUntilABuild := by
  intro i s t st data h answered error
  obtain ⟨-, -, rfl⟩ := errorsChangeNothingButValid i s t st data h answered error
  obtain ⟨response, -⟩ := answered
  obtain ⟨raises, -⟩ := raisesStatus_of_response h response
  refine ⟨answered_of_raisesStatus (raisesStatus_after_error h raises error) error,
    fun d n hd => ?_⟩
  have hv := afterBuild_valid d t
  exact ⟨afterBuild d t, _, _, exec_build_of_ne hd t, respond_answered rfl rfl _ _,
    exec_div_of_valid n hv, exec_red_of_valid n hv⟩

end Sys2Proof.Machine
end

section
/-! PROOFS of the statements on reset and hazards: the reset event, the commands before the first
`BUILD` and the detection of an inexact result (spec/70_reset_and_hazards.md). -/

namespace Sys2Proof.Machine

open Sys2Proof.Safety

/-! ### Before the first `BUILD` of a divisor that is not 0 (R97) -/

/-- While no instance is held, every command but a `BUILD` of a divisor that is not 0 answers its
error, and none is held afterwards: `BUILD 0` clears `VALID`, the others keep it (R81, R82, R83). -/
theorem exec_of_not_valid {i : Instr} {s : State} (hv : s.valid = false)
    (zero : ∀ d, i = .build d → d = 0) :
    ∃ t, exec i s = .next t ∧ t.valid = false ∧ Answered s t (failureWithoutInstance i) 0 := by
  cases i with
  | reserved imm => exact ⟨_, exec_reserved imm s, hv, respond_answered rfl rfl _ _⟩
  | build d =>
    obtain rfl := zero d rfl
    exact ⟨_, exec_build_zero s, dropInstance_valid s,
      respond_answered (dropInstance_pending s) (dropInstance_responses s) _ _⟩
  | div n => exact ⟨_, exec_div_of_not_valid n hv, hv, respond_answered rfl rfl _ _⟩
  | red n => exact ⟨_, exec_red_of_not_valid n hv, hv, respond_answered rfl rfl _ _⟩

/-- One step over a command that is no `BUILD` of such a divisor: it is taken and answered, and
`VALID` stays 0. -/
theorem step_of_not_valid {i : Instr} {is : List Instr} {s : State} (hv : s.valid = false)
    (presents : Presents s (i :: is)) (zero : ∀ d, i = .build d → d = 0) :
    ∃ t, step s = .next t ∧ t.valid = false ∧ Presents t is ∧
      t.responses = s.responses ++ [responseWord (failureWithoutInstance i) 0] := by
  obtain ⟨u, hstep, ⟨sameValid, -⟩, hpres, hresp⟩ := step_of_presents presents
  obtain ⟨t, hexec, stillNone, response, taken⟩ := exec_of_not_valid (sameValid.trans hv) zero
  exact ⟨t, hstep.trans hexec, stillNone, taken.trans hpres, hresp ▸ response⟩

/-! ### The exactness obligation (R99) -/

section Detection

variable {s : State}

/-- `DIV` and `RED` both give the true results exactly in the domain. -/
theorem inExactnessDomain_iff_true_results (h : HoldsInstance s) (n : Word) :
    InExactnessDomain n s ↔ (quotient n s).toNat = n.toNat / s.m.toNat ∧
      (remainder n s).toNat = n.toNat % s.m.toNat := by
  refine ⟨fun inside =>
    ⟨quotient_of_inExactnessDomain h inside, remainder_of_inExactnessDomain h inside⟩,
    fun ⟨exact, _⟩ => (quotient_eq_div_iff h n).1 (BitVec.eq_of_toNat_eq ?_)⟩
  rw [exact, BitVec.toNat_udiv]

/-- The host can test `RED`'s data against `M`: a true remainder is below `M`, and `2^64 - 1` is
not. -/
theorem remainder_eq_allOnes_iff_le (h : HoldsInstance s) (n : Word) :
    remainder n s = 0xFFFFFFFFFFFFFFFF ↔ s.m.toNat ≤ (remainder n s).toNat := by
  refine ⟨fun allOnes => ?_, fun le => (remainder_eq_allOnes_iff h n).2 fun inside => ?_⟩
  · rw [allOnes]
    exact Nat.le_of_lt_succ s.m.isLt
  · rw [remainder_of_inExactnessDomain h inside] at le
    exact absurd (Nat.mod_lt n.toNat h.m_pos) (not_lt.2 le)

end Detection

/-! ### The statements -/

/-- Settles O8, with the step of a reset event and what it leaves. -/
theorem resetEventDropsTheInstance : Obligations.ResetEventDropsTheInstance :=
  fun _ _ presented => ⟨_, step_of_reset presented, applyReset_valid _, applyReset_pending _,
    applyReset_responses _⟩

/-- Settles O9: both paths drop the instance, and the response of `BUILD 0` keeps the registers. -/
theorem resetEventLeavesWhatBuildZeroLeaves : Obligations.ResetEventLeavesWhatBuildZeroLeaves :=
  fun s => ⟨dropInstance s, _, step_of_reset rfl, exec_build_zero s,
    sameRegisters_respond BlockError.zeroDivisor.status 0 (dropInstance s)⟩

/-- Settles O40, by induction on the commands: each leaves `VALID = 0` for those after it
(`step_of_not_valid`). -/
theorem nothingSucceedsBeforeABuild : Obligations.NothingSucceedsBeforeABuild := by
  intro is
  induction is with
  | nil => exact fun s hv _ _ => ⟨s, rfl, hv, (List.append_nil _).symm⟩
  | cons i is ih =>
    intro s hv presents zero
    obtain ⟨u, hstep, hvu, hpres, hresp⟩ :=
      step_of_not_valid hv presents fun d isBuild => zero d (isBuild ▸ List.mem_cons_self)
    obtain ⟨t, hrun, hvt, hresp'⟩ :=
      ih u hvu hpres fun d later => zero d (List.mem_cons_of_mem i later)
    refine ⟨t, (run_succ_of_step hstep is.length).trans hrun, hvt, ?_⟩
    rw [hresp', hresp, List.append_assoc, List.singleton_append, List.map_cons]

/-- Settles O35: the results are true exactly in the domain, the two safe choices of R99 are among
the sufficient conditions of R58, and outside the domain `RED` is `2^64 - 1`, the true remainder
`M - 1` and the quotient one too large. -/
theorem inexactResultsAreDetectableByRed : Obligations.InexactResultsAreDetectableByRed := by
  intro n s hv h
  have trueResults := inExactnessDomain_iff_true_results h n
  have allOnesIff := remainder_eq_allOnes_iff h n
  refine ⟨quotient n s, remainder n s, (onlyAnswers_div_iff hv n _).2 rfl,
    (onlyAnswers_red_iff hv n _).2 rfl, fun safe => ?_, trueResults,
    remainder_eq_allOnes_iff_le h n, allOnesIff.trans (not_congr trueResults), fun allOnes => ?_⟩
  · obtain ⟨sufficient, -⟩ := divIsExactUnderTheSufficientConditions n s hv h
    obtain ⟨inside, -⟩ := sufficient (.inr (safe.imp_right .inl))
    exact trueResults.1 inside
  · have outside := allOnesIff.1 allOnes
    obtain ⟨last, -⟩ := (not_inExactnessDomain_iff h n).1 outside
    have oneMore := quotient_of_not_inExactnessDomain h outside
    exact ⟨last, (Nat.sub_eq_of_eq_add oneMore).symm, oneMore ▸ Nat.le_add_left 1 _⟩

end Sys2Proof.Machine
end
